-- ==== Sys2Proof/Word.lean ====
section
/-! DEFINITION. The two widths the block moves: bytes on its ports and 64-bit words inside it (spec R11, R71). -/

namespace Sys2Proof

/-- One byte of a payload, an entropy answer, a buffer or the result port (R71). -/
abbrev Byte := BitVec 8

/-- One element of `w64`: a matrix or table cell, a chaining word, the length counter, a status register (R11, R71).
Its `+` wraps modulo 2^64, as R11 and R125 say. -/
abbrev Word := BitVec 64

end Sys2Proof
end

