-- ==== Sys2Proof/Config.lean ====
section
/-! DEFINITION. The block's three parameters and the sizes derived from them (spec R6 to R10). -/

namespace Sys2Proof

/-- The parameters of the block (R6, R9, R10): the row count `N`, the compression factor `CF` and the number of
digest contexts `NUM_CTX`. The spec gives no values (D31), so every definition and statement takes them as data. -/
structure Config where
  /-- Rows of the matrix, output words of a compression (R6). -/
  N : Nat
  /-- The source's `compressionFactor` (R6). -/
  CF : Nat
  /-- The number of independent digest contexts (R9). -/
  NUM_CTX : Nat
  deriving DecidableEq, Repr

/-- `M`, the matrix columns and message bits per compression (R6, R7). -/
def Config.M (g : Config) : Nat := 64 * g.CF * g.N

/-- `IN_BYTES`, the compressor input length (R7). -/
def Config.inBytes (g : Config) : Nat := g.M / 8

/-- `OUT_WORDS`, the compressor output word count (R7). -/
def Config.outWords (g : Config) : Nat := g.N

/-- `S`, the chaining-value size and digest size in bytes (R7, R142). -/
def Config.S (g : Config) : Nat := 8 * g.N

/-- `B`, the new message bytes per compression, the block size (R7, R142). -/
def Config.B (g : Config) : Nat := g.inBytes - g.S

/-- `P`, the residue modulo `B` at which the length field starts (R7). -/
def Config.P (g : Config) : Nat := g.B - 8

/-- `ENT_BYTES`, the entropy bytes of one matrix fill (R7). -/
def Config.entBytes (g : Config) : Nat := 8 * g.N * g.M

/-- The values of a byte: the cells of one byte group of the lookup table (R25). -/
def byteValues : Nat := 256

/-- `LUT_WORDS`, the lookup-table size in words (R7, R108). -/
def Config.lutWords (g : Config) : Nat := g.N * (g.M / 8) * byteValues

/-- The configurations the spec admits (R8 for `N` and `CF`, R9 for `NUM_CTX`). -/
abbrev Config.Admitted (g : Config) : Prop :=
  1 ≤ g.N ∧ 2 ≤ g.CF ∧ 2 ≤ g.N * (g.CF - 1) ∧ 1 ≤ g.NUM_CTX ∧ g.NUM_CTX ≤ 16

/-- The configuration of `State.reset`: the spec's test configuration `TV` (95_test_vectors.md, Part 2).
DESIGN CHOICE, log entry 1: no source gives values, and the interface asks for one reset state. -/
def Config.tv : Config := { N := 2, CF := 2, NUM_CTX := 2 }

end Sys2Proof
end

