-- ==== Sys2Proof/Syntax.lean ====
section
/-! DEFINITION. The block's commands, one constructor per row of spec/opcode_table.json (spec R86). -/

namespace Sys2Proof

/-- A decoded command with its operand fields. The fields are the unsigned numbers of R82 to R85: `ctx` a context
number, `len` a byte count, `idx` a status-register index. The payload is no part of the word (R91). -/
inductive Instr where
  /-- MTX.GEN: fill the matrix from the entropy port (R100). -/
  | mtxGen
  /-- LUT.DERIVE: derive the lookup table from the matrix (R104). -/
  | lutDerive
  /-- CMP.REF: compress the payload with the reference compressor (R127). -/
  | cmpRef
  /-- CMP.LUT: compress the payload with the lookup-table compressor (R128). -/
  | cmpLut
  /-- MD.INIT.REF c: construct context `c` over the reference compressor (R145). -/
  | mdInitRef (ctx : Nat)
  /-- MD.INIT.LUT c: construct context `c` over the lookup-table compressor (R146). -/
  | mdInitLut (ctx : Nat)
  /-- MD.UPDATE c, len: absorb the payload of `len` bytes into context `c` (R147). -/
  | mdUpdate (ctx : Nat) (len : Nat)
  /-- MD.FINAL c: emit the digest of context `c` (R152). -/
  | mdFinal (ctx : Nat)
  /-- MD.RESET c: clear context `c`, keeping its compressor (R156). -/
  | mdReset (ctx : Nat)
  /-- CSR.RD idx: emit status register `idx` (R180). -/
  | csrRd (idx : Nat)
  deriving DecidableEq, Repr

end Sys2Proof
end

