-- ==== Sys2Proof/WellFormed.lean ====
section
/-! DEFINITION. Which terms of `Instr` are commands of the block: each operand fits its field (spec R82 to R84). -/

namespace Sys2Proof

/-- A context number fits `w[11:8]` (R82). It may exceed `NUM_CTX`: that is a fault at execution, not an ill-formed
command (R85). -/
abbrev ctxFits (c : Nat) : Prop := c < 16

/-- A byte count fits `w[31:16]` (R83). -/
abbrev lenFits (n : Nat) : Prop := n < 65536

/-- A status-register index fits `w[23:16]` (R84). -/
abbrev idxFits (k : Nat) : Prop := k < 256

/-- Every operand of the command fits its field of the command word (R81 to R84). -/
def Instr.wellFormed : Instr → Bool
  | .mtxGen => true
  | .lutDerive => true
  | .cmpRef => true
  | .cmpLut => true
  | .mdInitRef c => decide (ctxFits c)
  | .mdInitLut c => decide (ctxFits c)
  | .mdUpdate c n => decide (ctxFits c ∧ lenFits n)
  | .mdFinal c => decide (ctxFits c)
  | .mdReset c => decide (ctxFits c)
  | .csrRd k => decide (idxFits k)

end Sys2Proof
end

