-- ==== Sys2Proof/Decode.lean ====
section
/-! DEFINITION. The command decoder and encoder (spec R80 to R91), the opcode map of R86 as rows of match and mask, and
the byte transport of a command word (R68). -/

namespace Sys2Proof

/-- One command word on the command port (R68, R80). -/
abbrev CmdWord := BitVec 32

/-- Why a word is no command (R88): its opcode is not listed, or a must-be-zero field of its format holds a one.
`truncated` is the transport's alone: fewer than four bytes are no command word (R68, R91). -/
inductive IllegalReason where
  | reservedOpcode (opc : BitVec 8)
  | nonzeroReservedField (opc : BitVec 8)
  | truncated
  deriving DecidableEq, Repr

/-- The answer of `Decode(w)` (R87). -/
inductive Decoded where
  | command (i : Instr)
  | illegal (why : IllegalReason)
  deriving DecidableEq, Repr

/-- The command a decoder's answer names, if it names one. -/
def Decoded.instr? : Decoded → Option Instr
  | .command i => some i
  | .illegal _ => none

/-- The opcode `w[7:0]` (R80). -/
def opcOf (w : CmdWord) : BitVec 8 := w.extractLsb' 0 8

/-- The context field `w[11:8]` of formats C and U, unsigned (R82, R83). -/
def ctxOf (w : CmdWord) : Nat := (w.extractLsb' 8 4).toNat

/-- The byte count `w[31:16]` of format U, unsigned (R83). -/
def lenOf (w : CmdWord) : Nat := (w.extractLsb' 16 16).toNat

/-- The status-register index `w[23:16]` of format R, unsigned (R84). -/
def idxOf (w : CmdWord) : Nat := (w.extractLsb' 16 8).toNat

/-- Format Z's must-be-zero field `w[31:8]` is zero (R81, R90). -/
def zeroFieldsZ (w : CmdWord) : Bool := w.extractLsb' 8 24 == 0#24

/-- Format C's must-be-zero field `w[31:12]` is zero (R82, R90). -/
def zeroFieldsC (w : CmdWord) : Bool := w.extractLsb' 12 20 == 0#20

/-- Format U's must-be-zero field `w[15:12]` is zero (R83, R90). -/
def zeroFieldsU (w : CmdWord) : Bool := w.extractLsb' 12 4 == 0#4

/-- Format R's must-be-zero fields `w[15:8]` and `w[31:24]` are zero (R84, R90). -/
def zeroFieldsR (w : CmdWord) : Bool := w.extractLsb' 8 8 == 0#8 && w.extractLsb' 24 8 == 0#8

/-- The command when its format's must-be-zero fields are zero, else the rejection by name (R90). -/
def ifZero (w : CmdWord) (ok : Bool) (i : Instr) : Decoded :=
  if ok then .command i else .illegal (.nonzeroReservedField (opcOf w))

/-- `Decode(w)`: total, and a function of the word alone (R87). -/
def decode (w : CmdWord) : Decoded :=
  if opcOf w = 0x01#8 then ifZero w (zeroFieldsZ w) .mtxGen
  else if opcOf w = 0x02#8 then ifZero w (zeroFieldsZ w) .lutDerive
  else if opcOf w = 0x03#8 then ifZero w (zeroFieldsZ w) .cmpRef
  else if opcOf w = 0x04#8 then ifZero w (zeroFieldsZ w) .cmpLut
  else if opcOf w = 0x10#8 then ifZero w (zeroFieldsC w) (.mdInitRef (ctxOf w))
  else if opcOf w = 0x11#8 then ifZero w (zeroFieldsC w) (.mdInitLut (ctxOf w))
  else if opcOf w = 0x12#8 then ifZero w (zeroFieldsU w) (.mdUpdate (ctxOf w) (lenOf w))
  else if opcOf w = 0x13#8 then ifZero w (zeroFieldsC w) (.mdFinal (ctxOf w))
  else if opcOf w = 0x14#8 then ifZero w (zeroFieldsC w) (.mdReset (ctxOf w))
  else if opcOf w = 0x20#8 then ifZero w (zeroFieldsR w) (.csrRd (idxOf w))
  else .illegal (.reservedOpcode (opcOf w))

/-- The word `w[7:0], w[15:8], w[23:16], w[31:24]` is laid out in, least-significant byte first (R68). -/
def wordBytes (w : CmdWord) : List Byte :=
  [w.extractLsb' 0 8, w.extractLsb' 8 8, w.extractLsb' 16 8, w.extractLsb' 24 8]

/-- The decoder over a byte transport (R68): the first four bytes, least-significant first, make the word; the rest of
the bytes is handed back. Every command is one word, so four bytes are always enough (R91). -/
def decodeBytes : List Byte → Decoded × List Byte
  | b0 :: b1 :: b2 :: b3 :: rest => (decode (b3 ++ b2 ++ b1 ++ b0), rest)
  | _ => (.illegal .truncated, [])

/-- What the decoder reads from the table's bits `w`, of which the row has `nbits`: the word is laid out in the
transport's byte order (R68) and given to the decoder. -/
def decodeTableWord (nbits w : Nat) : Option Instr :=
  (decodeBytes (wordBytes (BitVec.ofNat 32 (w % 2 ^ nbits)))).1.instr?

/-- The value `v` placed in a command word from bit `lo` up (R80). -/
def placeField (v : BitVec n) (lo : Nat) : CmdWord := v.setWidth 32 <<< lo

/-- A word of format Z (R81): OPC alone. -/
def encodeZ (opc : BitVec 8) : CmdWord := placeField opc 0

/-- A word of format C (R82): OPC and CTX. -/
def encodeC (opc : BitVec 8) (c : Nat) : CmdWord := placeField opc 0 ||| placeField (BitVec.ofNat 4 c) 8

/-- A word of format U (R83): OPC, CTX and LEN. -/
def encodeU (opc : BitVec 8) (c n : Nat) : CmdWord :=
  placeField opc 0 ||| placeField (BitVec.ofNat 4 c) 8 ||| placeField (BitVec.ofNat 16 n) 16

/-- A word of format R (R84): OPC and IDX. -/
def encodeR (opc : BitVec 8) (k : Nat) : CmdWord := placeField opc 0 ||| placeField (BitVec.ofNat 8 k) 16

/-- The word of a command, by the opcode map of R86 and the formats of R80. -/
def encode : Instr → CmdWord
  | .mtxGen => encodeZ 0x01
  | .lutDerive => encodeZ 0x02
  | .cmpRef => encodeZ 0x03
  | .cmpLut => encodeZ 0x04
  | .mdInitRef c => encodeC 0x10 c
  | .mdInitLut c => encodeC 0x11 c
  | .mdUpdate c n => encodeU 0x12 c n
  | .mdFinal c => encodeC 0x13 c
  | .mdReset c => encodeC 0x14 c
  | .csrRd k => encodeR 0x20 k

/-- One row of the opcode map (R86): `(w & mask) = pattern` selects it. -/
structure OpRow where
  mnemonic : String
  pattern : CmdWord
  mask : CmdWord
  deriving DecidableEq, Repr

/-- The word is selected by the row (R86). -/
def OpRow.selects (r : OpRow) (w : CmdWord) : Bool := w &&& r.mask == r.pattern

/-- The opcode map of R86, written from its `match` and `mask` columns. The decoder does not use it: that the two agree
is a statement (R87). -/
def opcodeMap : List OpRow :=
  [ { mnemonic := "MTX.GEN", pattern := 0x00000001, mask := 0xFFFFFFFF },
    { mnemonic := "LUT.DERIVE", pattern := 0x00000002, mask := 0xFFFFFFFF },
    { mnemonic := "CMP.REF", pattern := 0x00000003, mask := 0xFFFFFFFF },
    { mnemonic := "CMP.LUT", pattern := 0x00000004, mask := 0xFFFFFFFF },
    { mnemonic := "MD.INIT.REF", pattern := 0x00000010, mask := 0xFFFFF0FF },
    { mnemonic := "MD.INIT.LUT", pattern := 0x00000011, mask := 0xFFFFF0FF },
    { mnemonic := "MD.UPDATE", pattern := 0x00000012, mask := 0x0000F0FF },
    { mnemonic := "MD.FINAL", pattern := 0x00000013, mask := 0xFFFFF0FF },
    { mnemonic := "MD.RESET", pattern := 0x00000014, mask := 0xFFFFF0FF },
    { mnemonic := "CSR.RD", pattern := 0x00000020, mask := 0xFF00FFFF } ]

/-- The mnemonic of a command, as R86 spells it. -/
def Instr.mnemonic : Instr → String
  | .mtxGen => "MTX.GEN"
  | .lutDerive => "LUT.DERIVE"
  | .cmpRef => "CMP.REF"
  | .cmpLut => "CMP.LUT"
  | .mdInitRef _ => "MD.INIT.REF"
  | .mdInitLut _ => "MD.INIT.LUT"
  | .mdUpdate _ _ => "MD.UPDATE"
  | .mdFinal _ => "MD.FINAL"
  | .mdReset _ => "MD.RESET"
  | .csrRd _ => "CSR.RD"

end Sys2Proof
end

