-- ==== Sys2Proof/Machine/State.lean ====
section
/-! DEFINITION. The state of the block (spec R20, R27), the host's side of its ports (R40 to R44), the reset state (R45),
and the reasons a step can stop. -/

namespace Sys2Proof.Machine

/-- The active compressor of a context, the field SEL: 0 = reference, 1 = lookup table (R27, R141). -/
inductive Compressor where
  | ref
  | lut
  deriving DecidableEq, Repr

/-- The matrix `A`: rows of cells, `A[i][c]` (R24). -/
abbrev Matrix := List (List Word)

/-- The lookup table `T`: rows of byte groups of 256 cells, `T[i][g][v]` (R25). -/
abbrev Table := List (List (List Word))

/-- One digest context (R27). -/
structure Ctx where
  /-- BOUND: the context has been constructed. -/
  bound : Bool
  /-- SEL: the active compressor. -/
  sel : Compressor
  /-- CV: the chaining value, `N` words. -/
  cv : List Word
  /-- BUF: the carry buffer, `B` bytes. -/
  buf : List Byte
  /-- NX: the count of bytes carried, below `B`. -/
  nx : Nat
  /-- LEN: the cumulative byte count, modulo 2^64. -/
  len : Word
  deriving DecidableEq, Repr

/-- A context with every field zero but BOUND and SEL: the construct state of R145 and R146, and with BOUND = 0 and
SEL = 0 the reset state of R45. -/
def Ctx.zeroed (g : Config) (bound : Bool) (sel : Compressor) : Ctx :=
  { bound := bound, sel := sel, cv := List.replicate g.N 0, buf := List.replicate g.B 0, nx := 0, len := 0 }

/-- An unbound context: every field 0 (R28, R45). -/
def Ctx.unbound (g : Config) : Ctx := Ctx.zeroed g false .ref

/-- What the host presents on the command port: a command word and its payload (R40). -/
structure Command where
  word : CmdWord
  pay : List Byte
  deriving DecidableEq, Repr

/-- One move of the host on the command port or the reset line (R44): a command, or `rst` between commands. -/
inductive HostMove where
  | command (c : Command)
  | rst
  deriving DecidableEq, Repr

/-- The entropy port's answer to one request (R41): the bytes, or `err` ("Exhaustion or error"). -/
inductive EntropyAnswer where
  | ok (bytes : List Byte)
  | err
  deriving DecidableEq, Repr

/-- The whole machine: the architectural state of R20, the configuration (a parameter of the step by R39, held here
because the interface gives the step nothing else; log entry 1), and the ports. -/
structure State where
  /-- The configuration; no step changes it (R10, R39). -/
  cfg : Config
  /-- MATRIX_VALID (R23). -/
  matrixValid : Bool
  /-- The matrix `A` (R24). -/
  matrix : Matrix
  /-- LUT_VALID (R26). -/
  lutValid : Bool
  /-- The lookup table `T` (R25). -/
  table : Table
  /-- The digest contexts `ctx[0] .. ctx[NUM_CTX-1]` (R27). -/
  ctxs : List Ctx
  /-- FAULTED (R37), also the level of `fault_o` (R43). -/
  faulted : Bool
  /-- CAUSE, the code of the first fault since reset (R32, R37). -/
  cause : BitVec 8
  /-- FCMD, the command word of the first fault since reset (R32, R37). -/
  fcmd : CmdWord
  /-- Command port: the pair being performed, or the last one performed (R40; the model's own, log entry 4). -/
  cmd : Command
  /-- Command port and reset line: the host's moves not yet taken, oldest first (R40, R44; log entry 3). -/
  stream : List HostMove
  /-- Entropy port: the host's answers to the coming requests, in order (R41; log entry 5). -/
  entropy : List EntropyAnswer
  /-- Result port: every byte emitted, in order (R42, R236; log entry 8). -/
  result : List Byte
  deriving DecidableEq, Repr

/-- Why a step stops with a fault of the MODEL. The block's own faults (R200 to R209) are not here: they are taken, as
next states with FAULTED set. -/
inductive Fault where
  /-- Raised by MTX.GEN's entropy request when the host never answers it: "A host that never answers an entropy
  request leaves the block stuck in MTX.GEN, which a model represents as no step" (R237, U9). Safe: no step is claimed. -/
  | entropyUnanswered
  deriving DecidableEq, Repr

/-- Why a step has no meaning. -/
inductive Refusal where
  /-- Raised by an arm of `exec` for an instruction without a meaning. Safe: no next state is claimed. -/
  | notModelled (mnemonic : String)
  /-- Raised by `step` when the configuration is outside R8 and R9: "a model refuses every configuration outside this
  constraint" (R8, U11). Safe: the refusal is the spec's own. -/
  | configNotAdmitted
  /-- Raised by MTX.GEN's entropy request when the pending answer is `ok` with another number of bytes than asked: R41
  and R44 give the host no such move (log entry 6). Safe: no next state is claimed. -/
  | entropyAnswerLength
  deriving DecidableEq, Repr

/-- The reset state of a block with configuration `g` (R45), with idle ports. The cells of `A` and `T` are unspecified
by R45: all 0 here, DESIGN CHOICE, log entry 7. -/
def State.resetWith (g : Config) : State where
  cfg := g
  matrixValid := false
  matrix := List.replicate g.N (List.replicate g.M 0)
  lutValid := false
  table := List.replicate g.N (List.replicate g.inBytes (List.replicate byteValues 0))
  ctxs := List.replicate g.NUM_CTX (Ctx.unbound g)
  faulted := false
  cause := 0
  fcmd := 0
  cmd := { word := 0, pay := [] }
  stream := []
  entropy := []
  result := []

/-- The machine right after hardware reset (R45, R232), at the configuration of log entry 1. -/
def State.reset : State := State.resetWith Config.tv

end Sys2Proof.Machine
end

