-- ==== Sys2Proof/Machine/Operands.lean ====
section
/-! DEFINITION. How bytes become words and bits (spec R12, R13, 20_memory.md) and the payload length each command
requires (R86). -/

namespace Sys2Proof.Machine

/-- `bit(v, p)`: bit position `p` of a byte, position 0 the most significant (R12). -/
def bit (v : Byte) (p : Nat) : Bool := v.getLsbD (7 - p)

/-- `LE64(v)`: the 8 bytes of a word, least-significant first (R13). -/
def le64 (v : Word) : List Byte := (List.range 8).map fun k => v.extractLsb' (8 * k) 8

/-- `fromLE64(s)`: the sum of `s[k]·2^(8k)` (R13). -/
def fromLE64 : List Byte → Word
  | [] => 0
  | b :: s => b.setWidth 64 + 256 * fromLE64 s

/-- `SER(W)`: the words' bytes, each word little-endian, in row order (R13, R65). -/
def ser (ws : List Word) : List Byte := ws.flatMap le64

/-- The bytes `s[k .. k+n)` (R11). -/
def slice (s : List Byte) (k n : Nat) : List Byte := (s.drop k).take n

/-- `buf[k .. k+|s|) <- s` (R144). -/
def writeAt (buf : List Byte) (k : Nat) (s : List Byte) : List Byte :=
  buf.take k ++ s ++ buf.drop (k + s.length)

/-- The sum of `f 0, …, f (n-1)` in `w64`, modulo 2^64 (R105, R121, R122, R125). -/
def sumTo (n : Nat) (f : Nat → Word) : Word := ((List.range n).map f).sum

/-- `A[i][c]` (R24). Outside the grid it reads as 0, which no command does in a well-formed state (log entry 12). -/
def cell (a : Matrix) (i c : Nat) : Word := (a.getD i []).getD c 0

/-- `T[i][g][v]` (R25). Outside the table it reads as 0, as `cell` does (log entry 12). -/
def entry (t : Table) (i g v : Nat) : Word := ((t.getD i []).getD g []).getD v 0

/-- The payload length a command requires, the `payload` column of R86 (R91, R240). -/
def payloadLength (g : Config) : Instr → Nat
  | .mtxGen => 0
  | .lutDerive => 0
  | .cmpRef => g.inBytes
  | .cmpLut => g.inBytes
  | .mdInitRef _ => 0
  | .mdInitLut _ => 0
  | .mdUpdate _ n => n
  | .mdFinal _ => 0
  | .mdReset _ => 0
  | .csrRd _ => 0

end Sys2Proof.Machine
end

