-- ==== Sys2Proof/Machine/Ops.lean ====
section
/-! DEFINITION. The named operations every command is built from: the result port, the contexts, the entropy port,
taking a fault (spec R203), discarding a command while faulted (R205), the order of checks (R207), hardware reset (R230)
and taking a move from the host. There is no return from a fault but reset (R208). -/

namespace Sys2Proof.Machine

/-- What a step or a meaning answers. -/
abbrev Result := Host.Outcome State Fault Refusal

/-- The fault causes of R201. Codes 10 to 255 are never recorded, so they have no name. -/
inductive Cause where
  | illegalCommand
  | ctxRange
  | ctxUnbound
  | matrixNotReady
  | lutNotReady
  | matrixAlreadyValid
  | precondition
  | entropy
  | padAssert
  deriving DecidableEq, Repr

/-- The cause code of R201. -/
def causeCode : Cause → BitVec 8
  | .illegalCommand => 1
  | .ctxRange => 2
  | .ctxUnbound => 3
  | .matrixNotReady => 4
  | .lutNotReady => 5
  | .matrixAlreadyValid => 6
  | .precondition => 7
  | .entropy => 8
  | .padAssert => 9

/-- Fault entry (R203): FAULTED, CAUSE and FCMD (the whole command word, R202); nothing else changes. -/
def raiseFault (s : State) (k : Cause) : State :=
  { s with faulted := true, cause := causeCode k, fcmd := s.cmd.word }

/-- `fault_o`, the side-band level equal to FAULTED at all times (R43). -/
def faultO (s : State) : Bool := s.faulted

/-- `Emit(b)`: append to the result port, which always accepts (R42). -/
def emit (s : State) (b : List Byte) : State := { s with result := s.result ++ b }

/-- `ctx[c]` (R27). A number outside the array reads as an unbound context; every command checks the range first. -/
def getCtx (s : State) (c : Nat) : Ctx := s.ctxs.getD c (Ctx.unbound s.cfg)

/-- `ctx[c] <- x`; no other context changes (R29). -/
def setCtx (s : State) (c : Nat) (x : Ctx) : State := { s with ctxs := s.ctxs.set c x }

/-- `A <- a`, `MATRIX_VALID <- 1` (R100). -/
def setMatrix (s : State) (a : Matrix) : State := { s with matrix := a, matrixValid := true }

/-- `T <- t`, `LUT_VALID <- 1` (R104). -/
def setTable (s : State) (t : Table) : State := { s with table := t, lutValid := true }

/-- One check of a command's rule: the condition that fails it and the cause it raises. -/
abbrev Check := Bool × Cause

/-- The cause of the first check that fails. A rule lists its checks by rising code, so this is the lowest code whose
condition holds (R207). -/
def firstFailure : List Check → Option Cause
  | [] => none
  | (bad, k) :: rest => if bad then some k else firstFailure rest

/-- `c ≥ NUM_CTX` raises CTX_RANGE (R201 code 2). -/
def checkCtxRange (s : State) (c : Nat) : Check := (decide (s.cfg.NUM_CTX ≤ c), .ctxRange)

/-- `ctx[c].BOUND = 0` raises CTX_UNBOUND (R201 code 3). -/
def checkCtxBound (s : State) (c : Nat) : Check := (!(getCtx s c).bound, .ctxUnbound)

/-- `MATRIX_VALID = 0` raises MATRIX_NOT_READY (R201 code 4). -/
def checkMatrixReady (s : State) : Check := (!s.matrixValid, .matrixNotReady)

/-- `LUT_VALID = 0` raises LUT_NOT_READY (R201 code 5). -/
def checkLutReady (s : State) : Check := (!s.lutValid, .lutNotReady)

/-- `MATRIX_VALID = 1` raises MATRIX_ALREADY_VALID (R201 code 6). -/
def checkMatrixEmpty (s : State) : Check := (s.matrixValid, .matrixAlreadyValid)

/-- `|pay| ≠ n` raises PRECONDITION (R201 code 7). -/
def checkPayload (s : State) (n : Nat) : Check := (decide (s.cmd.pay.length ≠ n), .precondition)

/-- A command's checks in order, then its effect: the first failing check raises its fault, with no other effect
(R14, R203, R204, R207). -/
def guarded (s : State) (checks : List Check) (effect : Result) : Result :=
  match firstFailure checks with
  | some k => .next (raiseFault s k)
  | none => effect

/-- A discarded command: no state changes, no new fault, no entropy request, nothing emitted; the payload is dropped
(R205). -/
def discardCommand (s : State) : Result := .next s

/-- Every command but CSR.RD: discarded while FAULTED = 1 (R205), else its checks and its effect. -/
def perform (s : State) (checks : List Check) (effect : Result) : Result :=
  if s.faulted then discardCommand s else guarded s checks effect

/-- `EntropyRead(n)` (R41): take the host's next answer. `err` raises ENTROPY (R201 code 8); `ok` of `n` bytes goes on
with them. No answer: the block is stuck (R237). -/
def entropyRead (s : State) (n : Nat) (goOn : List Byte → State → Result) : Result :=
  match s.entropy with
  | [] => .fault .entropyUnanswered
  | .err :: rest => .next (raiseFault { s with entropy := rest } .entropy)
  | .ok e :: rest =>
    if e.length = n then goOn e { s with entropy := rest } else .refused .entropyAnswerLength

/-- Hardware reset (R230): every item of R20 at its reset value (R45), in any state. Nothing is emitted and no entropy
is requested; what the host's side of the ports holds is the host's, so it stays (log entry 9). -/
def hardwareReset (s : State) : State :=
  { State.resetWith s.cfg with
    cmd := s.cmd, stream := s.stream, entropy := s.entropy, result := s.result }

/-- Take the pair `c` from the command port, leaving the moves `rest` (R40). -/
def takeCommand (s : State) (c : Command) (rest : List HostMove) : State :=
  { s with cmd := c, stream := rest }

/-- Take `rst`, leaving the moves `rest` (R230, R231). -/
def takeReset (s : State) (rest : List HostMove) : State :=
  hardwareReset { s with stream := rest }

/-- No move of the host is pending: the block holds its state (R217, R232; log entry 3). -/
def idle (s : State) : Result := .next s

/-- An illegal word: fault 1 when FAULTED = 0, discarded when FAULTED = 1 (R88). -/
def execIllegal (s : State) : Result := perform s [(true, .illegalCommand)] (.next s)

/-- A payload of the length the command in `w` requires, all bytes zero; none for an illegal word (R86). -/
def zeroPayload (g : Config) (w : CmdWord) : List Byte :=
  match decode w with
  | .command i => List.replicate (payloadLength g i) 0
  | .illegal _ => []

/-- The entropy answer a fetch of `w` needs: `ENT_BYTES` zero bytes for MTX.GEN, none for any other word (R41). -/
def zeroEntropy (g : Config) (w : CmdWord) : List EntropyAnswer :=
  match decode w with
  | .command .mtxGen => [.ok (List.replicate g.entBytes 0)]
  | _ => []

/-- The host issues the word `w` next, with a payload of the length it requires and, for MTX.GEN, an entropy answer
(R44; log entry 13). -/
def placeCommand (s : State) (w : CmdWord) : State :=
  { s with
    stream := .command { word := w, pay := zeroPayload s.cfg w } :: s.stream
    entropy := zeroEntropy s.cfg w ++ s.entropy }

end Sys2Proof.Machine
end

