-- ==== Sys2Proof/Machine/Compress.lean ====
section
/-! DEFINITION. The two compression functions and the direct commands CMP.REF and CMP.LUT (spec 41_compress.md). -/

namespace Sys2Proof.Machine

/-- `CompressRef(A, m)[i]`: the sum of `A[i][8j+b]` over every byte `j` and every set bit position `b` of `m[j]`
(R62, R121). -/
def refWord (g : Config) (a : Matrix) (m : List Byte) (i : Nat) : Word :=
  sumTo g.inBytes fun j => sumTo 8 fun b => if bit (m.getD j 0) b then cell a i (8 * j + b) else 0

/-- `CompressRef(A, m)`, `N` words (R121). -/
def compressRef (g : Config) (a : Matrix) (m : List Byte) : List Word :=
  (List.range g.N).map (refWord g a m)

/-- `CompressLut(T, m)[i]`: the sum of `T[i][j][m[j]]` over every byte `j` (R122). -/
def lutWord (g : Config) (t : Table) (m : List Byte) (i : Nat) : Word :=
  sumTo g.inBytes fun j => entry t i j (m.getD j 0).toNat

/-- `CompressLut(T, m)`, `N` words (R122). -/
def compressLut (g : Config) (t : Table) (m : List Byte) : List Word :=
  (List.range g.N).map (lutWord g t m)

/-- The compression a SEL value selects (R141). -/
def compressOf (s : State) : Compressor → List Byte → List Word
  | .ref => compressRef s.cfg s.matrix
  | .lut => compressLut s.cfg s.table

/-- CMP.REF (R127). -/
def execCmpRef (s : State) : Result :=
  perform s [checkMatrixReady s, checkPayload s s.cfg.inBytes]
    (.next (emit s (ser (compressRef s.cfg s.matrix s.cmd.pay))))

/-- CMP.LUT (R128). -/
def execCmpLut (s : State) : Result :=
  perform s [checkLutReady s, checkPayload s s.cfg.inBytes]
    (.next (emit s (ser (compressLut s.cfg s.table s.cmd.pay))))

end Sys2Proof.Machine
end

