-- ==== Sys2Proof/Machine/Flags.lean ====
section
/-! DEFINITION. The status registers `CSR(k)`: views of the state and constants of the configuration, never written
directly (spec R30 to R36). They are the only flags of the block: arithmetic sets none (R125). -/

namespace Sys2Proof.Machine

/-- The bit of SEL: 0 = reference, 1 = lookup table (R27). -/
def selBit : Compressor → Bool
  | .ref => false
  | .lut => true

/-- The value `v` placed in a status register from bit `lo` up. -/
def regField (v : BitVec n) (lo : Nat) : Word := v.setWidth 64 <<< lo

/-- STATUS (R31): bit 0 MATRIX_VALID, bit 1 LUT_VALID, bit 2 FAULTED, the rest 0. -/
def status (s : State) : Word :=
  regField (BitVec.ofBool s.matrixValid) 0 ||| regField (BitVec.ofBool s.lutValid) 1
    ||| regField (BitVec.ofBool s.faulted) 2

/-- FAULT_INFO (R32): bits 7:0 CAUSE, bits 31:8 zero, bits 63:32 FCMD. -/
def faultInfo (s : State) : Word := regField s.cause 0 ||| regField s.fcmd 32

/-- A configuration constant as a 64-bit register (R33; log entry 10). -/
def cfgWord (n : Nat) : Word := BitVec.ofNat 64 n

/-- CTX_STATUS(c) (R34): bit 0 BOUND, bit 1 SEL, bits 31:2 zero, bits 63:32 NX (log entry 10); 0 for `c ≥ NUM_CTX`. -/
def ctxStatus (s : State) (c : Nat) : Word :=
  if c < s.cfg.NUM_CTX then
    regField (BitVec.ofBool (getCtx s c).bound) 0 ||| regField (BitVec.ofBool (selBit (getCtx s c).sel)) 1
      ||| regField (BitVec.ofNat 32 (getCtx s c).nx) 32
  else 0

/-- CTX_LEN(c) (R35): LEN; 0 for `c ≥ NUM_CTX`. -/
def ctxLen (s : State) (c : Nat) : Word :=
  if c < s.cfg.NUM_CTX then (getCtx s c).len else 0

/-- `CSR(k)`, the map of R30. Every index not listed is reserved and reads 0 (R36). -/
def csr (s : State) (k : Nat) : Word :=
  if k = 0x00 then status s
  else if k = 0x01 then faultInfo s
  else if k = 0x02 then cfgWord s.cfg.N
  else if k = 0x03 then cfgWord s.cfg.CF
  else if k = 0x04 then cfgWord s.cfg.inBytes
  else if k = 0x05 then cfgWord s.cfg.outWords
  else if k = 0x06 then cfgWord s.cfg.S
  else if k = 0x07 then cfgWord s.cfg.B
  else if k = 0x08 then cfgWord s.cfg.NUM_CTX
  else if 0x10 ≤ k ∧ k < 0x20 then ctxStatus s (k - 0x10)
  else if 0x20 ≤ k ∧ k < 0x30 then ctxLen s (k - 0x20)
  else 0

end Sys2Proof.Machine
end

