-- ==== Sys2Proof/Machine/Csr.lean ====
section
/-! DEFINITION. Status register access: CSR.RD (spec 43_csr.md). -/

namespace Sys2Proof.Machine

/-- CSR.RD (R180): the one command that still executes when FAULTED = 1, with an empty payload; with a nonempty payload
it is then discarded, raising nothing (R181). -/
def execCsrRd (k : Nat) (s : State) : Result :=
  if s.faulted && s.cmd.pay.length != 0 then discardCommand s
  else guarded s [checkPayload s 0] (.next (emit s (le64 (csr s k))))

end Sys2Proof.Machine
end

