-- ==== Sys2Proof/Machine/Digest.lean ====
section
/-! DEFINITION. The streaming Merkle–Damgård digest: processBlock, Absorb, padding, Finalize, and the MD commands (spec
42_digest.md). The procedures take the block size `B` and the compression `f` of the context (R141). -/

namespace Sys2Proof.Machine

/-- ProcessBlock (R143): the chaining value, little-endian in row order (R63, log entry 15), then the block, are
compressed into the new chaining value. -/
def processBlock (f : List Byte → List Word) (x : Ctx) (blk : List Byte) : Ctx :=
  { x with cv := f (ser x.cv ++ blk) }

/-- Absorb's first step (R144): a partly filled buffer is filled, and compressed when full. Answers the context and the
bytes not yet taken. -/
def fillBuffer (B : Nat) (f : List Byte → List Word) (x : Ctx) (m : List Byte) : Ctx × List Byte :=
  if x.nx = 0 then (x, m)
  else
    let k := min m.length (B - x.nx)
    let y : Ctx := { x with buf := writeAt x.buf x.nx (m.take k), nx := x.nx + k }
    if y.nx = B then ({ processBlock f y y.buf with nx := 0 }, m.drop k) else (y, m.drop k)

/-- Absorb's loop (R144), `q` times: compress the next `B` bytes straight from the input. -/
def absorbBlocks (B : Nat) (f : List Byte → List Word) : Nat → Ctx → List Byte → Ctx × List Byte
  | 0, x, m => (x, m)
  | q + 1, x, m => absorbBlocks B f q (processBlock f x (m.take B)) (m.drop B)

/-- Absorb's last step (R144): a leftover tail goes to the start of the buffer. -/
def storeTail (x : Ctx) (m : List Byte) : Ctx :=
  if m = [] then x else { x with buf := writeAt x.buf 0 m, nx := m.length }

/-- `LEN <- LEN + n`, modulo 2^64 (R144, R159). -/
def addLen (x : Ctx) (n : Nat) : Ctx := { x with len := x.len + BitVec.ofNat 64 n }

/-- Absorb (R144). The loop `while |s| ≥ B` runs `|s| / B` times. -/
def absorb (B : Nat) (f : List Byte → List Word) (x : Ctx) (m : List Byte) : Ctx :=
  let filled := fillBuffer B f (addLen x m.length) m
  let looped := absorbBlocks B f (filled.2.length / B) filled.1 filled.2
  storeTail looped.1 looped.2

/-- `PadLen(L)` (R149). -/
def padLen (B L : Nat) : Nat :=
  let r := L % B
  if r < B - 8 then B - 8 - r else 2 * B - 8 - r

/-- The bytes `0x80 ‖ 0^(PadLen(L) − 1)` (R150). -/
def padBytes (B : Nat) (len : Word) : List Byte :=
  0x80#8 :: List.replicate (padLen B len.toNat - 1) 0#8

/-- The length field `LE64(L·8 mod 2^64)` (R64, R150). -/
def lengthField (len : Word) : List Byte := le64 (len * 8)

/-- The private copy `d` of Finalize after its two absorbs (R151). -/
def padded (B : Nat) (f : List Byte → List Word) (x : Ctx) : Ctx :=
  absorb B f (absorb B f x (padBytes B x.len)) (lengthField x.len)

/-- Finalize (R151): the digest `SER(d.CV)`, or nothing when the padding assertion fails (R153). -/
def finalize (B : Nat) (f : List Byte → List Word) (x : Ctx) : Option (List Byte) :=
  if (padded B f x).nx = 0 then some (ser (padded B f x).cv) else none

/-- MD.INIT.REF (R145, R160). -/
def execMdInitRef (c : Nat) (s : State) : Result :=
  perform s [checkCtxRange s c, checkMatrixReady s, checkPayload s 0]
    (.next (setCtx s c (Ctx.zeroed s.cfg true .ref)))

/-- MD.INIT.LUT (R146, R160). -/
def execMdInitLut (c : Nat) (s : State) : Result :=
  perform s [checkCtxRange s c, checkLutReady s, checkPayload s 0]
    (.next (setCtx s c (Ctx.zeroed s.cfg true .lut)))

/-- MD.UPDATE (R147). -/
def execMdUpdate (c n : Nat) (s : State) : Result :=
  perform s [checkCtxRange s c, checkCtxBound s c, checkPayload s n]
    (.next (setCtx s c
      (absorb s.cfg.B (compressOf s (getCtx s c).sel) (getCtx s c) s.cmd.pay)))

/-- MD.FINAL's effect (R152): emit the digest; on a failed padding assertion fault 9, nothing emitted (R153). -/
def emitDigest (s : State) : Option (List Byte) → Result
  | some d => .next (emit s d)
  | none => .next (raiseFault s .padAssert)

/-- MD.FINAL (R152): the context is not written (R155). -/
def execMdFinal (c : Nat) (s : State) : Result :=
  perform s [checkCtxRange s c, checkCtxBound s c, checkPayload s 0]
    (emitDigest s (finalize s.cfg.B (compressOf s (getCtx s c).sel) (getCtx s c)))

/-- MD.RESET (R156): CV, BUF, NX and LEN are cleared; BOUND and SEL stay. -/
def execMdReset (c : Nat) (s : State) : Result :=
  perform s [checkCtxRange s c, checkCtxBound s c, checkPayload s 0]
    (.next (setCtx s c (Ctx.zeroed s.cfg (getCtx s c).bound (getCtx s c).sel)))

end Sys2Proof.Machine
end

