-- ==== Sys2Proof/Machine/Matrix.lean ====
section
/-! DEFINITION. Matrix fill and table derivation: MTX.GEN and LUT.DERIVE (spec 40_matrix.md). -/

namespace Sys2Proof.Machine

/-- The matrix filled from the entropy bytes `e`: cell `(i, c)` is the 8 bytes at offset `8·(i·M + c)`, little-endian
(R61, R100, R101; the row-major order is the spec's decision D10, log entry 14). -/
def fillMatrix (g : Config) (e : List Byte) : Matrix :=
  (List.range g.N).map fun i =>
    (List.range g.M).map fun c => fromLE64 (slice e (8 * (i * g.M + c)) 8)

/-- `Derive(A)[i][g][v]`: the sum of `A[i][8g+p]` over the set bit positions `p` of `v` (R105). -/
def deriveCell (a : Matrix) (i g v : Nat) : Word :=
  sumTo 8 fun p => if bit (BitVec.ofNat 8 v) p then cell a i (8 * g + p) else 0

/-- `Derive(A)`, the whole table (R105, R108). -/
def deriveTable (g : Config) (a : Matrix) : Table :=
  (List.range g.N).map fun i =>
    (List.range g.inBytes).map fun j =>
      (List.range byteValues).map fun v => deriveCell a i j v

/-- MTX.GEN (R100 to R103). -/
def execMtxGen (s : State) : Result :=
  perform s [checkMatrixEmpty s, checkPayload s 0]
    (entropyRead s s.cfg.entBytes fun e t => .next (setMatrix t (fillMatrix s.cfg e)))

/-- LUT.DERIVE (R104, R106). -/
def execLutDerive (s : State) : Result :=
  perform s [checkMatrixReady s, checkPayload s 0]
    (.next (setTable s (deriveTable s.cfg s.matrix)))

end Sys2Proof.Machine
end

