-- ==== Sys2Proof/Machine/Dispatch.lean ====
section
/-! DEFINITION. One arm per command: its meaning (spec R86's `rule` column). -/

namespace Sys2Proof.Machine

/-- Performs the decoded command `i` on the pair the command port holds (R40). -/
def exec (i : Instr) (s : State) : Host.Outcome State Fault Refusal :=
  match i with
  | .mtxGen => Sys2Proof.Machine.execMtxGen s
  | .lutDerive => Sys2Proof.Machine.execLutDerive s
  | .cmpRef => Sys2Proof.Machine.execCmpRef s
  | .cmpLut => Sys2Proof.Machine.execCmpLut s
  | .mdInitRef c => Sys2Proof.Machine.execMdInitRef c s
  | .mdInitLut c => Sys2Proof.Machine.execMdInitLut c s
  | .mdUpdate c n => Sys2Proof.Machine.execMdUpdate c n s
  | .mdFinal c => Sys2Proof.Machine.execMdFinal c s
  | .mdReset c => Sys2Proof.Machine.execMdReset c s
  | .csrRd k => Sys2Proof.Machine.execCsrRd k s

end Sys2Proof.Machine
end

