-- ==== Sys2Proof/Machine/Step.lean ====
section
/-! DEFINITION. One step of the machine: the block takes the host's next move (spec R3, R40, R75, R230 to R232). -/

namespace Sys2Proof.Machine

/-- The step (R15): a configuration outside R8 and R9 is refused (U11); with no move pending the block holds its state;
`rst` resets it; a command is decoded from its word alone (R87) and performed. -/
def step (s : State) : Host.Outcome State Fault Refusal :=
  if s.cfg.Admitted then
    match s.stream with
    | [] => idle s
    | .rst :: rest => .next (takeReset s rest)
    | .command c :: rest =>
      match decode c.word with
      | .command i => exec i (takeCommand s c rest)
      | .illegal _ => execIllegal (takeCommand s c rest)
  else .refused .configNotAdmitted

/-- `s` with the instruction of the table's bits `w` as the host's next move (log entry 13). -/
def State.withFetchWord (s : State) (nbits w : Nat) : State :=
  placeCommand s (BitVec.ofNat 32 (w % 2 ^ nbits))

end Sys2Proof.Machine
end

