-- ==== Sys2Proof/Machine/Assembler.lean ====
section
/-! DEFINITION. The spec's pseudo-commands (R93) as moves of the host, and its assembler text (R92): a line of text to
the pair the host presents, and a command to its text. No step depends on this file (D25: "Notation only"). -/

namespace Sys2Proof.Machine

/-- The host's move that issues the command `i` with the payload `pay` (R40). -/
def moveOf (i : Instr) (pay : List Byte) : HostMove := .command { word := encode i, pay := pay }

/-- The most bytes one MD.UPDATE takes (R83, R93). -/
def pieceMax : Nat := 65535

/-- MD.UPDATE for each piece of at most `pieceMax` bytes; at most the first number of pieces (R93). -/
def writePieces (c : Nat) : Nat → List Byte → List HostMove
  | 0, _ => []
  | k + 1, m =>
    if m = [] then []
    else
      moveOf (.mdUpdate c (min m.length pieceMax)) (m.take pieceMax)
        :: writePieces c k (m.drop pieceMax)

/-- `MD.WRITE c, m` (R93). A message needs no more pieces than it has bytes. -/
def mdWrite (c : Nat) (m : List Byte) : List HostMove := writePieces c m.length m

/-- `MD.HASH.REF c, m` (R93). -/
def mdHashRef (c : Nat) (m : List Byte) : List HostMove :=
  moveOf (.mdInitRef c) [] :: (mdWrite c m ++ [moveOf (.mdFinal c) []])

/-- `MD.HASH.LUT c, m` (R93). -/
def mdHashLut (c : Nat) (m : List Byte) : List HostMove :=
  moveOf (.mdInitLut c) [] :: (mdWrite c m ++ [moveOf (.mdFinal c) []])

/-- `SETUP` (R93). -/
def setup : List HostMove := [moveOf .mtxGen [], moveOf .lutDerive []]

/-- `CSR.RD CTX_STATUS(c)` and `CSR.RD CTX_LEN(c)`, the named index forms (R93). -/
def csrRdCtxStatus (c : Nat) : HostMove := moveOf (.csrRd (0x10 + c)) []

/-- See `csrRdCtxStatus`. -/
def csrRdCtxLen (c : Nat) : HostMove := moveOf (.csrRd (0x20 + c)) []

/-- The text of a command: its mnemonic, then its operands separated by commas (R92). -/
def asmText : Instr → String
  | .mtxGen => "MTX.GEN"
  | .lutDerive => "LUT.DERIVE"
  | .cmpRef => "CMP.REF"
  | .cmpLut => "CMP.LUT"
  | .mdInitRef c => "MD.INIT.REF " ++ Nat.repr c
  | .mdInitLut c => "MD.INIT.LUT " ++ Nat.repr c
  | .mdUpdate c n => "MD.UPDATE " ++ Nat.repr c ++ ", " ++ Nat.repr n
  | .mdFinal c => "MD.FINAL " ++ Nat.repr c
  | .mdReset c => "MD.RESET " ++ Nat.repr c
  | .csrRd k => "CSR.RD " ++ Nat.repr k

/-- The value of a hexadecimal digit (R92). -/
def hexDigit (c : Char) : Option Nat :=
  if '0' ≤ c ∧ c ≤ '9' then some (c.toNat - '0'.toNat)
  else if 'a' ≤ c ∧ c ≤ 'f' then some (c.toNat - 'a'.toNat + 10)
  else if 'A' ≤ c ∧ c ≤ 'F' then some (c.toNat - 'A'.toNat + 10)
  else none

/-- The number that `ds` continues after the digits already worth `acc`. -/
def readDigits (base acc : Nat) : List Char → Option Nat
  | [] => some acc
  | c :: ds =>
    match hexDigit c with
    | some d => if d < base then readDigits base (acc * base + d) ds else none
    | none => none

/-- A decimal or `0x`-prefixed hexadecimal number (R92). -/
def readNumber : List Char → Option Nat
  | [] => none
  | '0' :: 'x' :: ds => if ds = [] then none else readDigits 16 0 ds
  | '0' :: 'X' :: ds => if ds = [] then none else readDigits 16 0 ds
  | ds => readDigits 10 0 ds

/-- The register names R30 gives one index each. -/
def registerNames : List (List Char × Nat) :=
  [ ("STATUS".toList, 0x00), ("FAULT_INFO".toList, 0x01), ("CFG_ROWS".toList, 0x02), ("CFG_CF".toList, 0x03),
    ("CFG_IN_BYTES".toList, 0x04), ("CFG_OUT_WORDS".toList, 0x05), ("CFG_DIGEST_SIZE".toList, 0x06),
    ("CFG_BLOCK_SIZE".toList, 0x07), ("CFG_NUM_CTX".toList, 0x08) ]

/-- `t` without the leading text `p`, if it starts with it. -/
def dropLead : List Char → List Char → Option (List Char)
  | [], t => some t
  | _ :: _, [] => none
  | a :: p, b :: t => if a = b then dropLead p t else none

/-- The number between `name(` and `)`. -/
def readIndexed (name t : List Char) : Option Nat :=
  match dropLead name t with
  | some r => if r.getLast? = some ')' then readNumber r.dropLast else none
  | none => none

/-- A context form of a register index (R30, R93): `base + c` for `c` in 0..15. -/
def indexedRegister (name : String) (base : Nat) (t : List Char) : Option Nat :=
  match readIndexed name.toList t with
  | some c => if c < 16 then some (base + c) else none
  | none => none

/-- A status-register index: a number or a register name (R92). -/
def readIndex (t : List Char) : Option Nat :=
  match registerNames.find? (fun r => r.1 == t) with
  | some r => some r.2
  | none =>
    match indexedRegister "CTX_STATUS(" 0x10 t with
    | some k => some k
    | none =>
      match indexedRegister "CTX_LEN(" 0x20 t with
      | some k => some k
      | none => readNumber t

/-- Text without the blanks at its start. -/
def skipBlanks (t : List Char) : List Char := t.dropWhile (· == ' ')

/-- Text without the blanks around it. -/
def trim (t : List Char) : List Char := (skipBlanks (skipBlanks t).reverse).reverse

/-- The operands of a line, separated by commas (R92). -/
def operands (t : List Char) : List (List Char) :=
  if trim t = [] then [] else (t.splitOn ',').map trim

/-- Splits a line at `pay=` into the command's text and the payload's (R92). -/
def splitPay : List Char → List Char × Option (List Char)
  | [] => ([], none)
  | c :: t =>
    match dropLead "pay=".toList (c :: t) with
    | some p => ([], some p)
    | none => (c :: (splitPay t).1, (splitPay t).2)

/-- Bytes in hexadecimal, first byte first (R92). -/
def readHex : List Char → Option (List Byte)
  | [] => some []
  | [_] => none
  | a :: b :: t =>
    match hexDigit a, hexDigit b, readHex t with
    | some x, some y, some r => some (BitVec.ofNat 8 (16 * x + y) :: r)
    | _, _, _ => none

/-- A payload: hexadecimal bytes, or a quoted ASCII text (R92). -/
def readPayload (t : List Char) : Option (List Byte) :=
  match trim t with
  | '"' :: r =>
    if r.getLast? = some '"' ∧ r.dropLast.all (fun c => decide (c.toNat < 128)) then
      some (r.dropLast.map fun c => BitVec.ofNat 8 c.toNat)
    else none
  | r => readHex r

/-- The command a mnemonic (in capitals) and its operands name (R92). -/
def readInstr (name : List Char) (args : List (List Char)) : Option Instr :=
  match args with
  | [] =>
    if name = "MTX.GEN".toList then some .mtxGen
    else if name = "LUT.DERIVE".toList then some .lutDerive
    else if name = "CMP.REF".toList then some .cmpRef
    else if name = "CMP.LUT".toList then some .cmpLut
    else none
  | [a] =>
    if name = "MD.INIT.REF".toList then (readNumber a).map .mdInitRef
    else if name = "MD.INIT.LUT".toList then (readNumber a).map .mdInitLut
    else if name = "MD.FINAL".toList then (readNumber a).map .mdFinal
    else if name = "MD.RESET".toList then (readNumber a).map .mdReset
    else if name = "CSR.RD".toList then (readIndex a).map .csrRd
    else none
  | [a, b] =>
    if name = "MD.UPDATE".toList then
      match readNumber a, readNumber b with
      | some c, some n => some (.mdUpdate c n)
      | _, _ => none
    else none
  | _ => none

/-- The command of a line's text before `pay=`; mnemonics are case-insensitive (R92). An operand that does not fit its
field names no command. -/
def assembleInstr (t : List Char) : Option Instr :=
  let line := skipBlanks t
  let name := (line.takeWhile (· != ' ')).map Char.toUpper
  match readInstr name (operands (line.dropWhile (· != ' '))) with
  | some i => if i.wellFormed then some i else none
  | none => none

/-- A line of assembler text to the pair the host presents (R40, R92). -/
def assemble (line : String) : Option Command :=
  let parts := splitPay line.toList
  match assembleInstr parts.1, (parts.2.elim (some []) readPayload) with
  | some i, some pay => some { word := encode i, pay := pay }
  | _, _ => none

end Sys2Proof.Machine
end

