-- ==== Sys2Proof/Safety.lean ====
section
/-! DEFINITION. The terms the claims are stated in: the invariant of the block (spec R26, R28, R141, R201), the
Merkle–Damgård chain (R161), the table of fault conditions (R201), and what two states may differ in unseen (R24, R25,
R206). -/

namespace Sys2Proof.Machine

/-- The grid has `N` rows of `M` cells (R24). -/
abbrev matrixShaped (g : Config) (a : Matrix) : Prop :=
  a.length = g.N ∧ ∀ row ∈ a, row.length = g.M

/-- The table has `N` rows of `IN_BYTES` groups of 256 cells (R25). -/
abbrev tableShaped (g : Config) (t : Table) : Prop :=
  t.length = g.N ∧ ∀ row ∈ t, row.length = g.inBytes ∧ ∀ grp ∈ row, grp.length = byteValues

/-- A context of the shape R27 gives it: `N` chaining words, a buffer of `B` bytes, `NX < B`. -/
abbrev ctxShaped (g : Config) (x : Ctx) : Prop :=
  x.cv.length = g.N ∧ x.buf.length = g.B ∧ x.nx < g.B

/-- The context's compressor exists while it is bound (R141). -/
abbrev compressorReady (s : State) (x : Ctx) : Prop :=
  x.bound = true → (x.sel = .ref → s.matrixValid = true) ∧ (x.sel = .lut → s.lutValid = true)

/-- What holds of the block between commands: an admitted configuration (R8, R9), storages of their shapes (R24, R25,
R27), contexts ready and zero while unbound (R28, R141), a table derived from the matrix while it is valid (R26), and
fault registers that agree (R32, R201). -/
structure State.Inv (s : State) : Prop where
  admitted : s.cfg.Admitted
  matrixOk : matrixShaped s.cfg s.matrix
  tableOk : tableShaped s.cfg s.table
  ctxCount : s.ctxs.length = s.cfg.NUM_CTX
  ctxOk : ∀ x ∈ s.ctxs, ctxShaped s.cfg x
  ctxZero : ∀ x ∈ s.ctxs, x.bound = false → x = Ctx.unbound s.cfg
  ctxReady : ∀ x ∈ s.ctxs, compressorReady s x
  tableDerived : s.lutValid = true → s.matrixValid = true ∧ s.table = deriveTable s.cfg s.matrix
  notFaulted : s.faulted = false → s.cause = 0 ∧ s.fcmd = 0
  faultedCause : s.faulted = true → 1 ≤ s.cause.toNat ∧ s.cause.toNat ≤ 9

/-- Each context carries `LEN mod B` bytes: R28's `(LEN − NX)/B` whole blocks, for a count that has not wrapped. -/
def carriesResidue (s : State) : Prop := ∀ x ∈ s.ctxs, x.nx = x.len.toNat % s.cfg.B

/-- The Merkle–Damgård chain (R161): `h_0 = h` and `h_{k+1} = f(SER(h_k) ‖ s'[kB .. (k+1)B))`. -/
def chain (B : Nat) (f : List Byte → List Word) (h : List Word) (s : List Byte) : Nat → List Word
  | 0 => h
  | k + 1 => f (ser (chain B f h s k) ++ slice s (k * B) B)

/-- `Pad(L)` (R150), for a length `L` that need not fit 64 bits: the bit length is taken modulo 2^64. -/
def padOf (B L : Nat) : List Byte :=
  0x80#8 :: (List.replicate (padLen B L - 1) 0#8 ++ le64 (BitVec.ofNat 64 (8 * L)))

/-- The digest R161 gives a message: the chain over the padded message from the zero chaining value. -/
def chainDigest (g : Config) (f : List Byte → List Word) (m : List Byte) : List Byte :=
  ser (chain g.B f (List.replicate g.N 0) (m ++ padOf g.B m.length)
    ((m ++ padOf g.B m.length).length / g.B))

/-- Two contexts no result can tell apart: equal but for `BUF[NX..B)` (R28, U3). -/
abbrev sameCarried (x y : Ctx) : Prop :=
  x.bound = y.bound ∧ x.sel = y.sel ∧ x.cv = y.cv ∧ x.nx = y.nx ∧ x.len = y.len ∧
    x.buf.take x.nx = y.buf.take y.nx ∧ x.buf.length = y.buf.length

/-- Two states equal but for cells the spec leaves unspecified: `A` while MATRIX_VALID = 0, `T` while LUT_VALID = 0
(R24, R25, U1, U2). -/
abbrev sameButUnread (s t : State) : Prop :=
  (s.matrixValid = true → s.matrix = t.matrix) ∧ (s.lutValid = true → s.table = t.table) ∧
    t = { s with matrix := t.matrix, table := t.table }

/-- The configuration registers of R30's map, each with the size it holds (R33). -/
def cfgRegisters (g : Config) : List (Nat × Nat) :=
  [(0x02, g.N), (0x03, g.CF), (0x04, g.inBytes), (0x05, g.N), (0x06, g.S), (0x07, g.B), (0x08, g.NUM_CTX)]

/-- The context a command names, if it names one (R82, R83). -/
def ctxNamed : Instr → Option Nat
  | .mtxGen => none
  | .lutDerive => none
  | .cmpRef => none
  | .cmpLut => none
  | .mdInitRef c => some c
  | .mdInitLut c => some c
  | .mdUpdate c _ => some c
  | .mdFinal c => some c
  | .mdReset c => some c
  | .csrRd _ => none

/-- The commands that need the named context bound (R201 code 3). -/
def needsBound : Instr → Bool
  | .mtxGen => false
  | .lutDerive => false
  | .cmpRef => false
  | .cmpLut => false
  | .mdInitRef _ => false
  | .mdInitLut _ => false
  | .mdUpdate _ _ => true
  | .mdFinal _ => true
  | .mdReset _ => true
  | .csrRd _ => false

/-- The commands that need a matrix (R201 code 4). -/
def needsMatrix : Instr → Bool
  | .mtxGen => false
  | .lutDerive => true
  | .cmpRef => true
  | .cmpLut => false
  | .mdInitRef _ => true
  | .mdInitLut _ => false
  | .mdUpdate _ _ => false
  | .mdFinal _ => false
  | .mdReset _ => false
  | .csrRd _ => false

/-- The commands that need a table (R201 code 5). -/
def needsLut : Instr → Bool
  | .mtxGen => false
  | .lutDerive => false
  | .cmpRef => false
  | .cmpLut => true
  | .mdInitRef _ => false
  | .mdInitLut _ => true
  | .mdUpdate _ _ => false
  | .mdFinal _ => false
  | .mdReset _ => false
  | .csrRd _ => false

/-- The condition of cause code `k` in R201's table, for the codes a command is checked for before it has any effect
(2 to 7). Written from the table's columns `cause` and `raised by`, apart from the command rules. -/
def causeHolds (s : State) (i : Instr) (k : Nat) : Prop :=
  (k = 2 ∧ ∃ c, ctxNamed i = some c ∧ s.cfg.NUM_CTX ≤ c) ∨
  (k = 3 ∧ needsBound i = true ∧ ∃ c, ctxNamed i = some c ∧ ∀ x, s.ctxs[c]? = some x → x.bound = false) ∨
  (k = 4 ∧ needsMatrix i = true ∧ s.matrixValid = false) ∨
  (k = 5 ∧ needsLut i = true ∧ s.lutValid = false) ∨
  (k = 6 ∧ i = .mtxGen ∧ s.matrixValid = true) ∨
  (k = 7 ∧ s.cmd.pay.length ≠ payloadLength s.cfg i)

/-- No condition of codes 2 to 7 holds: the command executes normally (R207), but for the entropy answer (code 8) and
the padding assertion (code 9). -/
def noCause (s : State) (i : Instr) : Prop := ∀ k, ¬ causeHolds s i k

/-- The command the block takes next, if the host's next move is a legal command. -/
def nextCommand (s : State) : Option (Instr × Command) :=
  match s.stream with
  | .command c :: _ =>
    match decode c.word with
    | .command i => some (i, c)
    | .illegal _ => none
  | _ => none

/-- The host's next move is `rst`. -/
def resetNext (s : State) : Bool :=
  match s.stream with
  | .rst :: _ => true
  | _ => false

/-- Every pending entropy answer is one R41 allows for this configuration: `err`, or exactly `ENT_BYTES` bytes. -/
abbrev entropyAnswersFit (s : State) : Prop :=
  ∀ a ∈ s.entropy, ∀ e, a = .ok e → e.length = s.cfg.entBytes

/-- A run has ended well when FAULTED = 0 in its final state (R236). -/
abbrev endedWell (s : State) : Prop := s.faulted = false

end Sys2Proof.Machine
end

