-- ==== Sys2Proof/Certificates/Slice0/Obligations.lean ====
section
/-! DEFINITION. The statements about the SUMHASH CORE, by family: encoding, the step, reset and invariants, the matrix,
compression, the digest, status registers, faults, frames, whole-machine rules. -/

open Sys2Proof Sys2Proof.Machine

/-! ## Encoding (30_encoding.md) -/

/-- The words of 95_test_vectors.md D1 decode as its table says. -/
def Obligations.SpecWordsDecode : Prop :=
  decode 0x00000001 = .command .mtxGen ∧
  decode 0x00000101 = .illegal (.nonzeroReservedField 0x01) ∧
  decode 0x00000010 = .command (.mdInitRef 0) ∧
  decode 0x00000F10 = .command (.mdInitRef 15) ∧
  decode 0x00010010 = .illegal (.nonzeroReservedField 0x10) ∧
  decode 0x00FF0012 = .command (.mdUpdate 0 255) ∧
  decode 0x00001012 = .illegal (.nonzeroReservedField 0x12) ∧
  decode 0x00FF0020 = .command (.csrRd 0xFF) ∧
  decode 0x01000020 = .illegal (.nonzeroReservedField 0x20) ∧
  decode 0x00000120 = .illegal (.nonzeroReservedField 0x20) ∧
  (∀ w ∈ [0x00000000#32, 0x00000005#32, 0x00000015#32, 0x00000080#32, 0x000000FF#32],
    decode w = .illegal (.reservedOpcode (w.setWidth 8)))

/-- R80 to R86: the word of every well-formed command decodes to that command, at every operand value its fields
admit. -/
def Obligations.DecodeEncodeAgree : Prop :=
  ∀ i : Instr, i.wellFormed = true → decode (encode i) = .command i

/-- R86, R87: a word that decodes to a command is the word of that command: each command has one word. -/
def Obligations.EncodeDecodeAgree : Prop :=
  ∀ (w : CmdWord) (i : Instr), decode w = .command i → i.wellFormed = true ∧ encode i = w

/-- R87: `Decode(w)` is a command exactly when one row of R86's map, and no other, has `(w & mask) = match`; it is
then that row's command with the fields of R81 to R84; otherwise it is ILLEGAL. -/
def Obligations.DecodeFollowsOpcodeMap : Prop :=
  ∀ w : CmdWord,
    (∀ i, decode w = .command i →
      (∃ r, opcodeMap.filter (fun r => r.selects w) = [r] ∧ r.mnemonic = i.mnemonic) ∧
      (∀ c, ctxNamed i = some c → c = w.toNat / 2 ^ 8 % 2 ^ 4) ∧
      (∀ c n, i = .mdUpdate c n → n = w.toNat / 2 ^ 16) ∧
      (∀ k, i = .csrRd k → k = w.toNat / 2 ^ 16 % 2 ^ 8)) ∧
    (∀ why, decode w = .illegal why → ∀ r ∈ opcodeMap, r.selects w = false)

/-! ## Configuration (00_scope.md) -/

/-- R7, R142: the derived sizes of every admitted configuration; the table is 32 times the matrix (R108). -/
def Obligations.DerivedSizes : Prop :=
  ∀ g : Config, g.Admitted →
    g.M = g.CF * g.N * 64 ∧ g.inBytes = 8 * g.CF * g.N ∧ g.inBytes * 8 = g.M ∧ g.outWords = g.N ∧
    g.S = 8 * g.N ∧ g.B = g.inBytes - 8 * g.N ∧ g.B = 8 * g.N * (g.CF - 1) ∧ g.inBytes = g.S + g.B ∧
    g.P = g.B - 8 ∧ g.entBytes = 8 * g.N * g.M ∧ g.lutWords = g.N * (g.M / 8) * 256 ∧
    g.lutWords = 32 * (g.N * g.M) ∧ 16 ≤ g.B

/-- R8: a configuration outside the constraint is refused by every step; one inside it has `B ≥ 16` and `P ≥ 8`. -/
def Obligations.ConfigurationsRefused : Prop :=
  (∀ s : State, ¬ (1 ≤ s.cfg.N ∧ 2 ≤ s.cfg.CF ∧ 2 ≤ s.cfg.N * (s.cfg.CF - 1)) →
    step s = .refused .configNotAdmitted) ∧
  (∀ g : Config, 1 ≤ g.N → 2 ≤ g.CF → 2 ≤ g.N * (g.CF - 1) → 16 ≤ g.B ∧ g.P = g.B - 8 ∧ 8 ≤ g.P)

/-! ## The step (00_scope.md, 10_state.md, 70_reset_and_hazards.md) -/

/-- A step whose next move is a legal command runs that command on the state with the pair taken from the port and the
move taken from the host's stream (R15, R40). The stream and the port latch are the model's, log entries 3 and 4. -/
def Obligations.StepRunsDecodedCommand : Prop :=
  ∀ (s : State) (c : Command) (rest : List HostMove) (i : Instr),
    s.cfg.Admitted → s.stream = .command c :: rest → decode c.word = .command i →
    step s = exec i { s with cmd := c, stream := rest }

/-- R88: an illegal word raises fault 1 when FAULTED = 0, recording the word, and is discarded when FAULTED = 1. -/
def Obligations.IllegalWordStep : Prop :=
  ∀ (s : State) (c : Command) (rest : List HostMove) (why : IllegalReason),
    s.cfg.Admitted → s.stream = .command c :: rest → decode c.word = .illegal why →
    (s.faulted = false →
      step s = .next { s with cmd := c, stream := rest, faulted := true, cause := 1, fcmd := c.word }) ∧
    (s.faulted = true → step s = .next { s with cmd := c, stream := rest })

/-- With no move of the host pending a step leaves the block as it is: the model's reading of R217 and R232, log entry
3. -/
def Obligations.IdleStep : Prop :=
  ∀ s : State, s.cfg.Admitted → s.stream = [] → step s = .next s

/-- R230: `rst`, in any state, sets every item to its reset value; nothing is emitted and no entropy is requested. -/
def Obligations.HardwareResetStep : Prop :=
  ∀ (s : State) (rest : List HostMove), s.cfg.Admitted → s.stream = .rst :: rest →
    ∃ t, step s = .next t ∧ t.matrixValid = false ∧ t.lutValid = false ∧
      t.ctxs = List.replicate s.cfg.NUM_CTX
        { bound := false, sel := .ref, cv := List.replicate s.cfg.N 0, buf := List.replicate s.cfg.B 0,
          nx := 0, len := 0 } ∧
      t.faulted = false ∧ t.cause = 0 ∧ t.fcmd = 0 ∧ faultO t = false ∧
      t.result = s.result ∧ t.entropy = s.entropy

/-- R45: the reset state of every configuration, and how its status registers read. Nothing is said of the cells of
`A` and `T`, which R45 leaves unspecified. -/
def Obligations.ResetValues : Prop :=
  ∀ g : Config,
    (State.resetWith g).matrixValid = false ∧ (State.resetWith g).lutValid = false ∧
    (State.resetWith g).faulted = false ∧ (State.resetWith g).cause = 0 ∧ (State.resetWith g).fcmd = 0 ∧
    (State.resetWith g).ctxs.length = g.NUM_CTX ∧
    (∀ x ∈ (State.resetWith g).ctxs, x.bound = false ∧ x.sel = .ref ∧ x.cv = List.replicate g.N 0 ∧
      x.buf = List.replicate g.B 0 ∧ x.nx = 0 ∧ x.len = 0) ∧
    csr (State.resetWith g) 0x00 = 0 ∧ csr (State.resetWith g) 0x01 = 0 ∧
    (∀ k, 0x09 ≤ k → csr (State.resetWith g) k = 0) ∧
    (∀ r ∈ cfgRegisters g, r.2 < 2 ^ 64 → (csr (State.resetWith g) r.1).toNat = r.2)

/-! ## Invariants -/

/-- The reset state of every admitted configuration meets the invariant, and its contexts carry `LEN mod B` bytes. The
configuration of `State.reset` itself is the model's choice, log entry 1. -/
def Obligations.ResetMeetsInvariant : Prop :=
  (∀ g : Config, g.Admitted → (State.resetWith g).Inv ∧ carriesResidue (State.resetWith g)) ∧
    State.reset.Inv ∧ carriesResidue State.reset

/-- Every step keeps the invariant: shapes (R24, R25, R27), `NX < B` and unbound contexts zero (R28), compressors
ready (R141), the table derived (R26), the fault registers agreeing (R32, R201). -/
def Obligations.StepKeepsInvariant : Prop :=
  ∀ s t : State, s.Inv → step s = .next t → t.Inv

/-- R28 (marked derived by the spec): the count of bytes carried stays `LEN mod B` under every step, where `B` divides
2^64 (then a wrapping LEN does no harm); for any other `B` it stays so as long as LEN does not wrap in the step (log
entry 11). -/
def Obligations.StepKeepsResidue : Prop :=
  ∀ s t : State, s.Inv → carriesResidue s → step s = .next t →
    (s.cfg.B ∣ 2 ^ 64 ∨ ∀ x ∈ s.ctxs, ∀ c i, nextCommand s = some (i, c) →
      x.len.toNat + c.pay.length < 2 ^ 64) →
    carriesResidue t

/-- R23, R24, R25, R26, R103: once valid, matrix and table stay valid and unchanged under every step but hardware
reset. -/
def Obligations.MatrixAndTableImmutable : Prop :=
  ∀ s t : State, s.Inv → resetNext s = false → step s = .next t →
    (s.matrixValid = true → t.matrixValid = true ∧ t.matrix = s.matrix) ∧
    (s.lutValid = true → t.lutValid = true ∧ t.table = s.table)

/-- R23, R26: MATRIX_VALID is set only by a successful MTX.GEN, which fills the whole matrix; LUT_VALID only by
LUT.DERIVE, which derives it from the current matrix. -/
def Obligations.ValidBitsSetOnlyByTheirCommands : Prop :=
  ∀ s t : State, step s = .next t →
    (s.matrixValid = false → t.matrixValid = true →
      ∃ c e rest, nextCommand s = some (.mtxGen, c) ∧ s.entropy = .ok e :: rest ∧
        e.length = 8 * s.cfg.N * s.cfg.M ∧ t.matrix = fillMatrix s.cfg e) ∧
    (s.lutValid = false → t.lutValid = true →
      ∃ c, nextCommand s = some (.lutDerive, c) ∧ s.matrixValid = true ∧ t.matrix = s.matrix ∧
        t.table = deriveTable s.cfg s.matrix)

/-! ## Matrix and table (40_matrix.md) -/

/-- MTX.GEN executes normally on an empty matrix, an empty payload and an answered request: cell `(i, c)` is the
little-endian value of the 8 bytes at offset `8·(i·M + c)`, and nothing else changes (R61, R100). The row-major order
is the spec's own decision D10 (R101: "row-major is the natural order of an `N`-by-`M` grid"), log entry 14. -/
def Obligations.MtxGenCompletes : Prop :=
  ∀ (s : State) (e : List Byte) (rest : List EntropyAnswer),
    s.faulted = false → s.matrixValid = false → s.cmd.pay = [] →
    s.entropy = .ok e :: rest → e.length = 8 * s.cfg.N * s.cfg.M →
    ∃ a : Matrix, exec .mtxGen s = .next { s with matrix := a, matrixValid := true, entropy := rest } ∧
      a.length = s.cfg.N ∧
      ∀ i < s.cfg.N, ∃ row, a[i]? = some row ∧ row.length = s.cfg.M ∧
        ∀ c < s.cfg.M, ∃ v, row[c]? = some v ∧
          v.toNat = ∑ k ∈ Finset.range 8, (e.getD (8 * (i * s.cfg.M + c) + k) 0).toNat * 2 ^ (8 * k)

/-- R102: when the entropy port answers `err`, MTX.GEN writes no cell, leaves MATRIX_VALID = 0 and raises fault 8; the
request has consumed the answer. -/
def Obligations.MtxGenEntropyFailure : Prop :=
  ∀ (s : State) (rest : List EntropyAnswer),
    s.faulted = false → s.matrixValid = false → s.cmd.pay = [] → s.entropy = .err :: rest →
    exec .mtxGen s =
      .next { s with faulted := true, cause := 8, fcmd := s.cmd.word, entropy := rest }

/-- R237 (the queue of answers is the model's, log entry 5): a request that is never answered leaves the block stuck
in MTX.GEN: no step. -/
def Obligations.MtxGenUnansweredIsStuck : Prop :=
  ∀ s : State, s.faulted = false → s.matrixValid = false → s.cmd.pay = [] → s.entropy = [] →
    exec .mtxGen s = .fault .entropyUnanswered

/-- LUT.DERIVE executes normally when a matrix is valid and the payload empty (R104). -/
def Obligations.LutDeriveCompletes : Prop :=
  ∀ s : State, s.faulted = false → s.matrixValid = true → s.cmd.pay = [] →
    exec .lutDerive s = .next { s with table := deriveTable s.cfg s.matrix, lutValid := true }

/-- R106: LUT.DERIVE with LUT_VALID = 1 changes no state and raises no fault. -/
def Obligations.LutDeriveAgainChangesNothing : Prop :=
  ∀ s : State, s.Inv → s.faulted = false → s.lutValid = true → s.cmd.pay = [] →
    exec .lutDerive s = .next s

/-- R105: each derived cell is the sum of `A[i][8g + p]` over the set bit positions `p` of `v`, position 0 the mask
0x80. -/
def Obligations.DerivedCells : Prop :=
  ∀ (g : Config) (a : Matrix) (i j v : Nat), i < g.N → j < g.M / 8 → v < 256 →
    entry (deriveTable g a) i j v =
      ∑ p ∈ (Finset.range 8).filter (fun p => v / 2 ^ (7 - p) % 2 = 1), cell a i (8 * j + p)

/-- The laws of the table (R107, which the spec marks derived from R105): zero at 0x00, one matrix cell at each single
bit, additive over disjoint byte values, the whole group at 0xFF. -/
def Obligations.TableLaws : Prop :=
  ∀ (g : Config) (a : Matrix) (i j : Nat), i < g.N → j < g.M / 8 →
    entry (deriveTable g a) i j 0x00 = 0 ∧
    (∀ p < 8, entry (deriveTable g a) i j (0x80 >>> p) = cell a i (8 * j + p)) ∧
    (∀ u v, u < 256 → v < 256 → u &&& v = 0 →
      entry (deriveTable g a) i j (u ||| v) =
        entry (deriveTable g a) i j u + entry (deriveTable g a) i j v) ∧
    entry (deriveTable g a) i j 0xFF = ∑ p ∈ Finset.range 8, cell a i (8 * j + p)

/-! ## Compression (41_compress.md) -/

/-- R121: the reference compressor: for every row, the sum modulo 2^64 of the cells whose column's message bit is set,
most-significant bit first. -/
def Obligations.RefCompressorSums : Prop :=
  ∀ (g : Config) (a : Matrix) (m : List Byte),
    (compressRef g a m).length = g.N ∧
    ∀ i < g.N, (compressRef g a m)[i]? = some
      (∑ j ∈ Finset.range g.inBytes,
        ∑ b ∈ (Finset.range 8).filter (fun b => (m.getD j 0).toNat / 2 ^ (7 - b) % 2 = 1),
          cell a i (8 * j + b))

/-- R122: the lookup-table compressor: for every row, the sum modulo 2^64 of one table cell per message byte. -/
def Obligations.LutCompressorSums : Prop :=
  ∀ (g : Config) (t : Table) (m : List Byte),
    (compressLut g t m).length = g.N ∧
    ∀ i < g.N, (compressLut g t m)[i]? = some
      (∑ j ∈ Finset.range g.inBytes, entry t i j (m.getD j 0).toNat)

/-- Equivalence (R123, which the spec marks derived from R105, R121 and R122): with the derived table both compressors
give the same words for every input. -/
def Obligations.CompressorsEquivalent : Prop :=
  ∀ (g : Config) (a : Matrix) (m : List Byte),
    compressLut g (deriveTable g a) m = compressRef g a m

/-- Row independence (R124, which the spec marks derived from R121 and R122): the compression is linear over disjoint
messages and zero on the zero message, and each output row reads its own matrix row only, for both compressors. -/
def Obligations.CompressionLinear : Prop :=
  ∀ (g : Config) (a : Matrix),
    (∀ m₁ m₂ : List Byte, m₁.length = g.inBytes → m₂.length = g.inBytes →
      (∀ j, m₁.getD j 0 &&& m₂.getD j 0 = 0) →
      compressRef g a (List.zipWith (· ||| ·) m₁ m₂) =
        List.zipWith (· + ·) (compressRef g a m₁) (compressRef g a m₂) ∧
      compressLut g (deriveTable g a) (List.zipWith (· ||| ·) m₁ m₂) =
        List.zipWith (· + ·) (compressLut g (deriveTable g a) m₁) (compressLut g (deriveTable g a) m₂)) ∧
    compressRef g a (List.replicate g.inBytes 0) = List.replicate g.N 0 ∧
    compressLut g (deriveTable g a) (List.replicate g.inBytes 0) = List.replicate g.N 0 ∧
    (∀ (a' : Matrix) (m : List Byte) (i : Nat), a[i]? = a'[i]? →
      (compressRef g a m)[i]? = (compressRef g a' m)[i]?) ∧
    (∀ (t t' : Table) (m : List Byte) (i : Nat), t[i]? = t'[i]? →
      (compressLut g t m)[i]? = (compressLut g t' m)[i]?)

/-- CMP.REF and CMP.LUT execute normally with a valid matrix, or table, and a payload of `IN_BYTES` bytes: each
appends `SER` of its compression of the payload to the result port and writes no state (R66, R127, R128). -/
def Obligations.CmpCommandsComplete : Prop :=
  ∀ s : State, s.faulted = false → s.cmd.pay.length = s.cfg.inBytes →
    (s.matrixValid = true →
      exec .cmpRef s = .next { s with result := s.result ++ ser (compressRef s.cfg s.matrix s.cmd.pay) }) ∧
    (s.lutValid = true →
      exec .cmpLut s = .next { s with result := s.result ++ ser (compressLut s.cfg s.table s.cmd.pay) })

/-- R128's corner case, by R123 (marked derived): in a state that meets the invariant, CMP.LUT with a valid table does
exactly what CMP.REF does. -/
def Obligations.CmpCommandsAgree : Prop :=
  ∀ s : State, s.Inv → s.faulted = false → s.lutValid = true → s.cmd.pay.length = s.cfg.inBytes →
    (∃ t, exec .cmpLut s = .next t) ∧ exec .cmpLut s = exec .cmpRef s

/-- R13: `LE64`, `fromLE64` and `SER`: byte `k` of word `i` stands at place `8i + k`. -/
def Obligations.WordLayout : Prop :=
  (∀ v : Word, (le64 v).length = 8 ∧ ∀ k < 8, ((le64 v).getD k 0).toNat = v.toNat / 2 ^ (8 * k) % 256) ∧
  (∀ s : List Byte, s.length = 8 →
    (fromLE64 s).toNat = ∑ k ∈ Finset.range 8, (s.getD k 0).toNat * 2 ^ (8 * k)) ∧
  (∀ v : Word, fromLE64 (le64 v) = v) ∧
  (∀ ws : List Word, (ser ws).length = 8 * ws.length ∧
    ∀ i < ws.length, ∀ k < 8, ((ser ws).getD (8 * i + k) 0).toNat =
      (ws.getD i 0).toNat / 2 ^ (8 * k) % 256)

/-! ## Digest (42_digest.md) -/

/-- MD.INIT.REF and MD.INIT.LUT execute normally on a context in range, bound already or not, once their compressor
exists: the context becomes the construct state for that compressor and nothing else changes (R145, R146, R160). -/
def Obligations.MdInitCompletes : Prop :=
  ∀ (s : State) (c : Nat) (x : Ctx), s.faulted = false → c < s.cfg.NUM_CTX → s.cmd.pay = [] →
    x.bound = true → x.cv = List.replicate s.cfg.N 0 → x.buf = List.replicate s.cfg.B 0 → x.nx = 0 → x.len = 0 →
    (x.sel = .ref → s.matrixValid = true →
      exec (.mdInitRef c) s = .next { s with ctxs := s.ctxs.set c x }) ∧
    (x.sel = .lut → s.lutValid = true →
      exec (.mdInitLut c) s = .next { s with ctxs := s.ctxs.set c x })

/-- MD.UPDATE executes normally on a bound context with a payload of its length: it absorbs the payload (R147). With
the bytes carried before put in front, the whole blocks are chained from the old chaining value (R143), the tail is
carried, and LEN counts the payload modulo 2^64 (R144, R159; log entry 16); BOUND and SEL stay. The chaining value's
layout in a compressor input is the spec's decision D8, log entry 15. -/
def Obligations.MdUpdateCompletes : Prop :=
  ∀ (s : State) (c n : Nat) (x : Ctx),
    s.cfg.Admitted → s.faulted = false → c < s.cfg.NUM_CTX → s.ctxs[c]? = some x → x.bound = true →
    ctxShaped s.cfg x → s.cmd.pay.length = n →
    ∃ y : Ctx, exec (.mdUpdate c n) s = .next { s with ctxs := s.ctxs.set c y } ∧
      y.bound = x.bound ∧ y.sel = x.sel ∧ y.len = x.len + BitVec.ofNat 64 n ∧
      y.nx = (x.nx + n) % s.cfg.B ∧ y.buf.length = s.cfg.B ∧
      y.buf.take y.nx = (x.buf.take x.nx ++ s.cmd.pay).drop ((x.nx + n) / s.cfg.B * s.cfg.B) ∧
      y.cv = chain s.cfg.B (compressOf s x.sel) x.cv (x.buf.take x.nx ++ s.cmd.pay) ((x.nx + n) / s.cfg.B)

/-- Incrementality (R148, which the spec marks derived from R144): absorbing pieces in order leaves the same CV, NX,
carried bytes and LEN as absorbing them at once, and the same digest. -/
def Obligations.Incrementality : Prop :=
  ∀ (B : Nat) (f : List Byte → List Word) (x : Ctx) (pieces : List (List Byte)),
    0 < B → x.nx < B → x.buf.length = B →
    sameCarried (pieces.foldl (absorb B f) x) (absorb B f x pieces.flatten) ∧
    finalize B f (pieces.foldl (absorb B f) x) = finalize B f (absorb B f x pieces.flatten)

/-- The closed form of R149 (marked derived from the source's sentence) and R150: the pad length is the least positive
count that brings the total to `B − 8` modulo `B`, in closed form, and the padded message is a whole number of blocks.
-/
def Obligations.PaddingFits : Prop :=
  ∀ B L : Nat, 16 ≤ B →
    (L % B < B - 8 → padLen B L = B - 8 - L % B) ∧ (B - 8 ≤ L % B → padLen B L = 2 * B - 8 - L % B) ∧
    1 ≤ padLen B L ∧ padLen B L ≤ B ∧ (L + padLen B L) % B = B - 8 ∧
    (∀ n, 1 ≤ n → (L + n) % B = B - 8 → padLen B L ≤ n) ∧
    (L + (padOf B L).length) % B = 0

/-- The blocks Finalize compresses (R154, which the spec marks derived from R144 and R149; layout of the chaining
value: log entry 15; bit length modulo 2^64: log entry 16): one when `LEN mod B < B − 8`, two otherwise. The carried
count is taken as `LEN mod B` (R28); where it is not, Finalize fails (log entry 11). -/
def Obligations.FinalizeBlocks : Prop :=
  ∀ (B : Nat) (f : List Byte → List Word) (x : Ctx),
    16 ≤ B → x.buf.length = B → x.nx = x.len.toNat % B →
    (x.nx < B - 8 →
      finalize B f x = some (ser (f (ser x.cv ++
        (x.buf.take x.nx ++ [0x80#8] ++ List.replicate (B - 9 - x.nx) 0#8 ++ le64 (x.len * 8)))))) ∧
    (B - 8 ≤ x.nx →
      finalize B f x = some (ser (f (ser (f (ser x.cv ++
        (x.buf.take x.nx ++ [0x80#8] ++ List.replicate (B - x.nx - 1) 0#8))) ++
        (List.replicate (B - 8) 0#8 ++ le64 (x.len * 8))))))

/-- MD.FINAL executes normally on a bound context that carries `LEN mod B` bytes: it appends the digest, `S` bytes,
and changes no state: R152, and R155 and R158, which the spec marks derived. -/
def Obligations.MdFinalCompletes : Prop :=
  ∀ (s : State) (c : Nat) (x : Ctx),
    s.cfg.Admitted → s.faulted = false → c < s.cfg.NUM_CTX → s.ctxs[c]? = some x → x.bound = true →
    ctxShaped s.cfg x → x.nx = x.len.toNat % s.cfg.B → s.cmd.pay = [] →
    ∃ d, finalize s.cfg.B (compressOf s x.sel) x = some d ∧ d.length = 8 * s.cfg.N ∧
      exec (.mdFinal c) s = .next { s with result := s.result ++ d }

/-- R153's assertion: if the carry buffer were not empty after padding, MD.FINAL would raise fault 9, emit nothing and
change no context: so it is for a context that does not carry `LEN mod B` bytes, which needs a LEN that has wrapped
(the model's deduction, log entry 11). -/
def Obligations.MdFinalPadAssertion : Prop :=
  ∀ (s : State) (c : Nat) (x : Ctx),
    s.cfg.Admitted → s.faulted = false → c < s.cfg.NUM_CTX → s.ctxs[c]? = some x → x.bound = true →
    ctxShaped s.cfg x → x.nx ≠ x.len.toNat % s.cfg.B → s.cmd.pay = [] →
    exec (.mdFinal c) s = .next { s with faulted := true, cause := 9, fcmd := s.cmd.word }

/-- MD.RESET executes normally on a bound context: CV, BUF, NX and LEN are cleared, BOUND and SEL stay, and nothing
else changes (R156). -/
def Obligations.MdResetCompletes : Prop :=
  ∀ (s : State) (c : Nat) (x : Ctx), s.faulted = false → c < s.cfg.NUM_CTX → s.ctxs[c]? = some x →
    x.bound = true → s.cmd.pay = [] →
    ∃ y : Ctx, exec (.mdReset c) s = .next { s with ctxs := s.ctxs.set c y } ∧
      y.bound = true ∧ y.sel = x.sel ∧ y.cv = List.replicate s.cfg.N 0 ∧ y.buf = List.replicate s.cfg.B 0 ∧
      y.nx = 0 ∧ y.len = 0

/-- Reset equivalence (R157, which the spec marks derived from R145, R146 and R156): MD.RESET leaves exactly what
constructing the context again with its own compressor leaves. -/
def Obligations.ResetEquivalence : Prop :=
  ∀ (s : State) (c : Nat) (x : Ctx), s.Inv → s.faulted = false → s.ctxs[c]? = some x → x.bound = true →
    s.cmd.pay = [] →
    (∃ t, exec (.mdReset c) s = .next t) ∧
    (x.sel = .ref → exec (.mdReset c) s = exec (.mdInitRef c) s) ∧
    (x.sel = .lut → exec (.mdReset c) s = exec (.mdInitLut c) s)

/-- The chain (R161, which the spec marks derived): the digest of a message absorbed into a fresh context is the chain
over the padded message from the zero chaining value. The layout of the chaining value in a compressor input is the
spec's own decision (R63, D8), log entry 15; from 2^61 bytes on the bit length has wrapped (D9), log entry 16. -/
def Obligations.DigestIsChain : Prop :=
  ∀ (g : Config) (f : List Byte → List Word) (sel : Compressor) (m : List Byte),
    g.Admitted → m.length < 2 ^ 64 →
    finalize g.B f (absorb g.B f (Ctx.zeroed g true sel) m) = some (chainDigest g f m)

/-- Determinism over compressors (R158, which the spec marks derived): over one matrix, a message has the same digest
with either compressor. -/
def Obligations.DigestsAgree : Prop :=
  ∀ (g : Config) (a : Matrix) (m : List Byte), g.Admitted →
    finalize g.B (compressLut g (deriveTable g a))
        (absorb g.B (compressLut g (deriveTable g a)) (Ctx.zeroed g true .lut) m) =
      finalize g.B (compressRef g a) (absorb g.B (compressRef g a) (Ctx.zeroed g true .ref) m)

/-- `BUF[NX..B)` unused (R28, marked derived, and U3): it has no effect on any result: contexts that differ only there
absorb alike and finalize alike. -/
def Obligations.BufferTailUnused : Prop :=
  ∀ (B : Nat) (f : List Byte → List Word) (x y : Ctx) (m : List Byte),
    0 < B → x.nx < B → x.buf.length = B → sameCarried x y →
    sameCarried (absorb B f x m) (absorb B f y m) ∧ finalize B f x = finalize B f y

/-- The one-shot hash (R93, by R145, R146, R147 and R152; R161, marked derived): running the pseudo-command
MD.HASH.REF c, m, or MD.HASH.LUT c, m, from any state that meets the invariant, with the matrix or table it needs and
no fault, emits exactly the chain digest of `m`, takes exactly its own moves, and changes nothing else but the context
`c`. The host's stream and the port latch are the model's, log entries 3 and 4; the layout of the chaining value is
log entry 15, the bit length log entry 16. -/
def Obligations.OneShotHash : Prop :=
  ∀ (s : State) (c : Nat) (m : List Byte) (rest : List HostMove),
    s.Inv → s.faulted = false → c < s.cfg.NUM_CTX → m.length < 2 ^ 64 →
    (s.matrixValid = true → s.stream = mdHashRef c m ++ rest →
      ∃ t : State, core.run (mdHashRef c m).length s = .next t ∧
        t = { s with cmd := t.cmd, stream := rest, ctxs := t.ctxs,
                     result := s.result ++ chainDigest s.cfg (compressRef s.cfg s.matrix) m } ∧
        ∀ d, d ≠ c → t.ctxs[d]? = s.ctxs[d]?) ∧
    (s.lutValid = true → s.stream = mdHashLut c m ++ rest →
      ∃ t : State, core.run (mdHashLut c m).length s = .next t ∧
        t = { s with cmd := t.cmd, stream := rest, ctxs := t.ctxs,
                     result := s.result ++ chainDigest s.cfg (compressLut s.cfg s.table) m } ∧
        ∀ d, d ≠ c → t.ctxs[d]? = s.ctxs[d]?)

/-! ## Status registers (10_state.md, 43_csr.md) -/

/-- CSR.RD executes normally with an empty payload, faulted or not: it appends `LE64(CSR(k))` and writes no state
(R67, R180, R181). With a nonempty payload it raises fault 7 when not faulted, and is discarded when faulted. -/
def Obligations.CsrRdCompletes : Prop :=
  ∀ (s : State) (k : Nat),
    (s.cmd.pay = [] → exec (.csrRd k) s = .next { s with result := s.result ++ le64 (csr s k) }) ∧
    (s.cmd.pay ≠ [] → s.faulted = false →
      exec (.csrRd k) s = .next { s with faulted := true, cause := 7, fcmd := s.cmd.word }) ∧
    (s.cmd.pay ≠ [] → s.faulted = true → exec (.csrRd k) s = .next s)

/-- R31: STATUS, bit by bit, and its reset value. -/
def Obligations.StatusBits : Prop :=
  (∀ (s : State) (b : Nat), b < 64 → (csr s 0x00).getLsbD b =
    if b = 0 then s.matrixValid else if b = 1 then s.lutValid else if b = 2 then s.faulted else false) ∧
  ∀ g : Config, csr (State.resetWith g) 0x00 = 0

/-- R32: FAULT_INFO, field by field: CAUSE, zeros, FCMD; 0 while FAULTED = 0 in a state that meets the invariant. -/
def Obligations.FaultInfoFields : Prop :=
  ∀ s : State,
    (csr s 0x01).extractLsb' 0 8 = s.cause ∧ (csr s 0x01).extractLsb' 8 24 = 0#24 ∧
    (csr s 0x01).extractLsb' 32 32 = s.fcmd ∧
    (s.Inv → s.faulted = false → csr s 0x01 = 0) ∧ ∀ g : Config, csr (State.resetWith g) 0x01 = 0

/-- R34, R35: CTX_STATUS(c) and CTX_LEN(c) show the context, read 0 for `c ≥ NUM_CTX`, and are 0 at reset. Of an NX
that does not fit CTX_STATUS's 32 bits nothing is said (log entry 10). -/
def Obligations.ContextRegisters : Prop :=
  ∀ c < 16,
    (∀ (s : State) (x : Ctx), c < s.cfg.NUM_CTX → s.ctxs[c]? = some x →
      (csr s (0x10 + c)).getLsbD 0 = x.bound ∧
      ((csr s (0x10 + c)).getLsbD 1 = true ↔ x.sel = .lut) ∧
      (csr s (0x10 + c)).extractLsb' 2 30 = 0#30 ∧
      (x.nx < 2 ^ 32 → ((csr s (0x10 + c)).extractLsb' 32 32).toNat = x.nx) ∧
      csr s (0x20 + c) = x.len) ∧
    (∀ s : State, s.cfg.NUM_CTX ≤ c → csr s (0x10 + c) = 0 ∧ csr s (0x20 + c) = 0) ∧
    (∀ g : Config, csr (State.resetWith g) (0x10 + c) = 0 ∧ csr (State.resetWith g) (0x20 + c) = 0)

/-- R33, R36: the configuration registers hold the sizes of the configuration and no step changes them; a reserved
index reads 0, and reading it is no fault and changes no state. Of a size that does not fit 64 bits nothing is said (log
entry 10). -/
def Obligations.ConstantRegisters : Prop :=
  (∀ s : State, ∀ r ∈ cfgRegisters s.cfg, r.2 < 2 ^ 64 → (csr s r.1).toNat = r.2) ∧
  (∀ s t : State, step s = .next t → t.cfg = s.cfg ∧ ∀ k, 2 ≤ k → k ≤ 8 → csr t k = csr s k) ∧
  (∀ (s : State) (k : Nat), k < 256 → (8 < k ∧ k < 0x10 ∨ 0x30 ≤ k) → csr s k = 0 ∧
    (s.cmd.pay = [] → exec (.csrRd k) s = .next { s with result := s.result ++ List.replicate 8 0 }))

/-! ## Faults (60_exceptions.md) -/

/-- R201, R203, R207: of the conditions of codes 2 to 7 in R201's table, the lowest code whose condition holds is
raised: FAULTED, CAUSE and FCMD are written and nothing else changes. -/
def Obligations.LowestCauseIsRaised : Prop :=
  ∀ (s : State) (i : Instr) (k : Nat), s.faulted = false → causeHolds s i k →
    (∀ j < k, ¬ causeHolds s i j) →
    exec i s = .next { s with faulted := true, cause := BitVec.ofNat 8 k, fcmd := s.cmd.word }

/-- Precise faults (R203, and R204, which the spec marks derived): whenever a command of a block that is not faulted
leaves it faulted, nothing but the three fault registers has changed, but for the entropy answer that MTX.GEN's
request consumed; the code is one of R201's. -/
def Obligations.FaultsArePrecise : Prop :=
  ∀ (s t : State) (i : Instr), s.faulted = false → exec i s = .next t → t.faulted = true →
    t = { s with faulted := true, cause := t.cause, fcmd := s.cmd.word, entropy := t.entropy } ∧
    1 ≤ t.cause.toNat ∧ t.cause.toNat ≤ 9 ∧ faultO t = true ∧
    (t.entropy = s.entropy ∨ (i = .mtxGen ∧ t.cause = 8 ∧ s.entropy = .err :: t.entropy))

/-- R205: while FAULTED = 1 a command, legal or illegal, is discarded, but for CSR.RD with an empty payload: the pair
is taken from the port and nothing else changes. -/
def Obligations.FaultedBlockDiscards : Prop :=
  ∀ (s : State) (c : Command) (rest : List HostMove),
    s.cfg.Admitted → s.stream = .command c :: rest → s.faulted = true →
    (¬ ∃ k, decode c.word = .command (.csrRd k) ∧ c.pay = []) →
    step s = .next { s with cmd := c, stream := rest }

/-- R37: the fault registers are written only by a fault and only while FAULTED = 0, and cleared only by hardware
reset. Once faulted, no other step changes them, the matrix, the table or any context (R205, R208). -/
def Obligations.FaultStaysUntilReset : Prop :=
  ∀ s t : State, resetNext s = false → step s = .next t →
    (s.faulted = true →
      t.faulted = true ∧ t.cause = s.cause ∧ t.fcmd = s.fcmd ∧ t.matrixValid = s.matrixValid ∧
      t.matrix = s.matrix ∧ t.lutValid = s.lutValid ∧ t.table = s.table ∧ t.ctxs = s.ctxs ∧
      t.entropy = s.entropy) ∧
    (s.faulted = false → t.faulted = false → t.cause = s.cause ∧ t.fcmd = s.fcmd)

/-! ## Frames -/

/-- Frame of CMP.REF, CMP.LUT, MD.FINAL and CSR.RD: of the whole state only the result port and, on a fault, the fault
registers may change (R38, R126, R155, R180). -/
def Obligations.EmittingCommandsFrame : Prop :=
  ∀ (s t : State) (i : Instr),
    (i = .cmpRef ∨ i = .cmpLut ∨ (∃ c, i = .mdFinal c) ∨ ∃ k, i = .csrRd k) →
    exec i s = .next t →
    t = { s with result := t.result, faulted := t.faulted, cause := t.cause, fcmd := t.fcmd } ∧
    (t.faulted = s.faulted → t.cause = s.cause ∧ t.fcmd = s.fcmd) ∧
    (t.faulted ≠ s.faulted → t.result = s.result)

/-- Frame of MTX.GEN and LUT.DERIVE: MTX.GEN may change only the matrix, MATRIX_VALID and the entropy port, LUT.DERIVE
only the table and LUT_VALID, and, on a fault, the fault registers (R100, R104). -/
def Obligations.MatrixCommandsFrame : Prop :=
  ∀ s t : State,
    (exec .mtxGen s = .next t →
      t = { s with matrix := t.matrix, matrixValid := t.matrixValid, entropy := t.entropy,
                   faulted := t.faulted, cause := t.cause, fcmd := t.fcmd } ∧
      (t.faulted = s.faulted → t.cause = s.cause ∧ t.fcmd = s.fcmd) ∧
      (t.faulted ≠ s.faulted → t.matrix = s.matrix ∧ t.matrixValid = s.matrixValid)) ∧
    (exec .lutDerive s = .next t →
      t = { s with table := t.table, lutValid := t.lutValid,
                   faulted := t.faulted, cause := t.cause, fcmd := t.fcmd } ∧
      (t.faulted = s.faulted → t.cause = s.cause ∧ t.fcmd = s.fcmd) ∧
      (t.faulted ≠ s.faulted → t.table = s.table ∧ t.lutValid = s.lutValid))

/-- R29: no command writes a context other than the one it names, and a command that names a context writes neither
matrix nor table. Frame of MD.INIT.REF, MD.INIT.LUT, MD.UPDATE and MD.RESET: only the named context and, on a fault,
the fault registers may change. -/
def Obligations.ContextCommandsFrame : Prop :=
  (∀ (s t : State) (i : Instr), exec i s = .next t →
    (∀ d, ctxNamed i ≠ some d → t.ctxs[d]? = s.ctxs[d]?) ∧
    (∀ c, ctxNamed i = some c → t.matrix = s.matrix ∧ t.table = s.table)) ∧
  ∀ (s t : State) (i : Instr) (c : Nat),
    (i = .mdInitRef c ∨ i = .mdInitLut c ∨ (∃ n, i = .mdUpdate c n) ∨ i = .mdReset c) →
    exec i s = .next t →
    t = { s with ctxs := t.ctxs, faulted := t.faulted, cause := t.cause, fcmd := t.fcmd } ∧
    t.ctxs.length = s.ctxs.length ∧
    (t.faulted = s.faulted → t.cause = s.cause ∧ t.fcmd = s.fcmd) ∧
    (t.faulted ≠ s.faulted → t.ctxs = s.ctxs)

/-! ## Whole-machine rules -/

/-- The entropy port (R41; the queue of answers is the model's, log entry 5): the block consumes an entropy answer
only for a MTX.GEN, and then exactly one. The request comes after the checks of MTX.GEN (R100, R207) and a discarded
command makes none (R205), so the block was not faulted, the matrix was empty and so was the payload. -/
def Obligations.EntropyOnlyForMtxGen : Prop :=
  ∀ s t : State, step s = .next t →
    t.entropy = s.entropy ∨
    ∃ c a, nextCommand s = some (.mtxGen, c) ∧ s.faulted = false ∧ s.matrixValid = false ∧ c.pay = [] ∧
      s.entropy = a :: t.entropy

/-- R42: what a command emits. CMP.REF, CMP.LUT and MD.FINAL emit exactly `8·N` bytes whenever they are performed
without a fault; CSR.RD emits exactly 8 whenever its payload is empty, faulted or not; every other command, and every
command that faults or is discarded, emits nothing. What was emitted before stays. -/
def Obligations.OnlyListedCommandsEmit : Prop :=
  ∀ (s t : State) (i : Instr), s.Inv → exec i s = .next t →
    ∃ d, t.result = s.result ++ d ∧
      ((i = .cmpRef ∨ i = .cmpLut ∨ ∃ c, i = .mdFinal c) →
        d.length = if s.faulted = false ∧ t.faulted = false then 8 * s.cfg.N else 0) ∧
      ((∃ k, i = .csrRd k) → d.length = if s.cmd.pay = [] then 8 else 0) ∧
      (¬ (i = .cmpRef ∨ i = .cmpLut ∨ ∃ c, i = .mdFinal c) → ¬ (∃ k, i = .csrRd k) → d = [])

/-- Commutation (R76, which the spec marks derived from R29): two commands that name different contexts and do not
fault leave the same state in either order, but for the pair last taken and the order of the bytes they emit. Each
emits the same bytes in both orders, and the bytes stand on the result port in issue order. The stream and the port
latch are the model's, log entries 3 and 4. -/
def Obligations.ContextsCommute : Prop :=
  ∀ (s u t : State) (a b : Command) (i j : Instr) (c d : Nat) (rest : List HostMove),
    decode a.word = .command i → decode b.word = .command j →
    ctxNamed i = some c → ctxNamed j = some d → c ≠ d →
    step { s with stream := .command a :: .command b :: rest } = .next u → step u = .next t → t.faulted = false →
    ∃ u' t' da db, step { s with stream := .command b :: .command a :: rest } = .next u' ∧ step u' = .next t' ∧
      u.result = s.result ++ da ∧ t.result = s.result ++ da ++ db ∧
      u'.result = s.result ++ db ∧ t'.result = s.result ++ db ++ da ∧
      t = { t' with cmd := b, result := t.result }

/-- R24, R25, R206: cells of an invalid matrix or table affect nothing: two states that differ only there step alike,
to states that differ only there, with the same bytes emitted. -/
def Obligations.UnreadCellsInvisible : Prop :=
  ∀ s s' : State, s.Inv → sameButUnread s s' →
    (∀ t, step s = .next t → ∃ t', step s' = .next t' ∧ sameButUnread t t' ∧ t'.result = t.result) ∧
    (∀ r, step s = .fault r → step s' = .fault r) ∧ (∀ r, step s = .refused r → step s' = .refused r)

/-- Totality (R15, which the spec marks derived): the step is total: with an admitted configuration and an entropy
port that answers as R41 says, every step of every state gives one next state. -/
def Obligations.StepAlwaysAnswers : Prop :=
  ∀ s : State, s.cfg.Admitted → s.entropy ≠ [] → entropyAnswersFit s → ∃ t, step s = .next t
end

