-- ==== Sys2Proof/Laws/Bytes.lean ====
section
/-! SUPPORT. Lengths of the byte layouts (spec R13) and the places of `writeAt` (R144). -/

namespace Sys2Proof.Machine

@[simp] theorem le64_length (v : Word) : (le64 v).length = 8 := by simp [le64]

@[simp] theorem ser_nil : ser [] = [] := rfl

@[simp] theorem ser_cons (v : Word) (ws : List Word) : ser (v :: ws) = le64 v ++ ser ws := rfl

@[simp] theorem ser_length (ws : List Word) : (ser ws).length = 8 * ws.length := by
  induction ws with
  | nil => rfl
  | cons v ws ih => simp [ih]; omega

/-- Writing inside a buffer keeps its length. -/
theorem writeAt_length {buf s : List Byte} {k : Nat} (h : k + s.length ≤ buf.length) :
    (writeAt buf k s).length = buf.length := by
  simp [writeAt]; omega

/-- After a write at `k` the bytes before the end of the written ones are the old ones before `k`, then the written. -/
theorem take_writeAt {buf s : List Byte} {k : Nat} (h : k ≤ buf.length) :
    (writeAt buf k s).take (k + s.length) = buf.take k ++ s := by
  have hl : (buf.take k ++ s).length = k + s.length := by simp [h]
  rw [writeAt, ← hl, List.take_left]

@[simp] theorem padBytes_length (B : Nat) (len : Word) :
    (padBytes B len).length = padLen B len.toNat - 1 + 1 := by simp [padBytes]

@[simp] theorem lengthField_length (len : Word) : (lengthField len).length = 8 := le64_length _

@[simp] theorem compressRef_length (g : Config) (a : Matrix) (m : List Byte) :
    (compressRef g a m).length = g.N := by simp [compressRef]

@[simp] theorem compressLut_length (g : Config) (t : Table) (m : List Byte) :
    (compressLut g t m).length = g.N := by simp [compressLut]

@[simp] theorem compressOf_length (s : State) (c : Compressor) (m : List Byte) :
    (compressOf s c m).length = s.cfg.N := by cases c <;> simp [compressOf]

end Sys2Proof.Machine
end

