-- ==== Sys2Proof/Laws/Absorb.lean ====
section
/-! SUPPORT. What Absorb does (spec R144), said once: the bytes carried and the bytes given are one stream, whose whole
blocks are chained (R161) and whose tail is carried (R28). -/

namespace Sys2Proof.Machine

variable {B : Nat} {f : List Byte → List Word}

/-- The chain taken from its first block on. -/
theorem chain_succ_front (h : List Word) (s : List Byte) (k : Nat) :
    chain B f h s (k + 1) = chain B f (f (ser h ++ s.take B)) (s.drop B) k := by
  induction k with
  | zero => simp [chain, slice]
  | succ k ih =>
    have hs : slice s ((k + 1) * B) B = slice (s.drop B) (k * B) B := by
      simp [slice, Nat.succ_mul, Nat.add_comm]
    show f (ser (chain B f h s (k + 1)) ++ slice s ((k + 1) * B) B) = _
    rw [ih, hs]
    rfl

/-- The chain reads only the blocks it compresses. -/
theorem chain_append (h : List Word) (s t : List Byte) (k : Nat) (hk : k * B ≤ s.length) :
    chain B f h (s ++ t) k = chain B f h s k := by
  induction k with
  | zero => rfl
  | succ k ih =>
    have hkB : k * B + B ≤ s.length := by rw [← Nat.succ_mul]; exact hk
    have hs : slice (s ++ t) (k * B) B = slice s (k * B) B := by
      unfold slice
      rw [List.drop_append_of_le_length (by omega), List.take_append_of_le_length (by simp; omega)]
    rw [chain, chain, ih (by omega), hs]

/-- A chain goes on from where a chain stopped. -/
theorem chain_add (h : List Word) (s : List Byte) (k j : Nat) :
    chain B f h s (k + j) = chain B f (chain B f h s k) (s.drop (k * B)) j := by
  induction j with
  | zero => rfl
  | succ j ih =>
    have hs : slice s ((k + j) * B) B = slice (s.drop (k * B)) (j * B) B := by
      simp [slice, Nat.add_mul]
    rw [← Nat.add_assoc, chain, chain, ih, hs]

/-- What Absorb's loop does: the chain over the blocks it takes; the rest of the bytes is left. -/
theorem absorbBlocks_eq (q : Nat) (x : Ctx) (m : List Byte) :
    absorbBlocks B f q x m = ({ x with cv := chain B f x.cv m q }, m.drop (q * B)) := by
  induction q generalizing x m with
  | zero => simp [absorbBlocks, chain]
  | succ q ih =>
    rw [absorbBlocks, ih, chain_succ_front]
    simp [processBlock, Nat.succ_mul, Nat.add_comm]

/-- A context that carries the tail of a stream `s` whose whole blocks were chained from `h`. -/
structure Carries (B : Nat) (f : List Byte → List Word) (h : List Word) (s : List Byte) (y : Ctx) : Prop where
  cv : y.cv = chain B f h s (s.length / B)
  nx : y.nx = s.length % B
  carried : y.buf.take y.nx = s.drop (s.length / B * B)
  bufLen : y.buf.length = B

/-- Absorb's loop and tail, from an empty buffer. -/
theorem carries_of_empty (hB : 0 < B) {x : Ctx} (hx : x.nx = 0) (hb : x.buf.length = B) (m : List Byte) :
    Carries B f x.cv m
      (storeTail (absorbBlocks B f (m.length / B) x m).1 (absorbBlocks B f (m.length / B) x m).2) := by
  have hdm := Nat.div_add_mod m.length B
  have hlt := Nat.mod_lt m.length hB
  have hlen : (m.drop (m.length / B * B)).length = m.length % B := by
    rw [List.length_drop, Nat.mul_comm]; omega
  rw [absorbBlocks_eq]
  unfold storeTail
  split
  · next h =>
    replace h : m.drop (m.length / B * B) = [] := h
    have h0 : m.length % B = 0 := by rw [← hlen, h]; rfl
    exact ⟨rfl, by simp [hx, h0], by rw [h]; simp [hx], hb⟩
  · refine ⟨rfl, by simp [hlen], ?_, ?_⟩
    · simpa using take_writeAt (s := m.drop (m.length / B * B)) (Nat.zero_le x.buf.length)
    · rw [← hb]; exact writeAt_length (by rw [hb, hlen]; omega)

/-- The spec of Absorb (R144): with the bytes carried before put in front of the bytes given, the whole blocks of that
stream are chained from the old chaining value and its tail is carried; BOUND and SEL stay and LEN counts the bytes
given, modulo 2^64. -/
theorem absorb_spec (hB : 0 < B) {x : Ctx} (hx : x.nx < B) (hb : x.buf.length = B) (m : List Byte) :
    Carries B f x.cv (x.buf.take x.nx ++ m) (absorb B f x m) ∧
      (absorb B f x m).bound = x.bound ∧ (absorb B f x m).sel = x.sel ∧
      (absorb B f x m).len = x.len + BitVec.ofNat 64 m.length := by
  have hfields : ∀ (q : Nat) (y : Ctx) (r : List Byte),
      (storeTail (absorbBlocks B f q y r).1 (absorbBlocks B f q y r).2).bound = y.bound ∧
      (storeTail (absorbBlocks B f q y r).1 (absorbBlocks B f q y r).2).sel = y.sel ∧
      (storeTail (absorbBlocks B f q y r).1 (absorbBlocks B f q y r).2).len = y.len := by
    intro q y r
    rw [absorbBlocks_eq]
    unfold storeTail
    split <;> exact ⟨rfl, rfl, rfl⟩
  unfold absorb fillBuffer
  by_cases h0 : x.nx = 0
  · have h0' : (addLen x m.length).nx = 0 := h0
    simp only [h0', if_true]
    refine ⟨?_, (hfields _ _ _).1, (hfields _ _ _).2.1, (hfields _ _ _).2.2⟩
    have := carries_of_empty (f := f) hB h0' hb m
    simp only [h0, List.take_zero, List.nil_append]
    exact this
  · have h0' : ¬ (addLen x m.length).nx = 0 := h0
    simp only [h0', if_false]
    set k := min m.length (B - x.nx) with hk
    have hk' : min m.length (B - (addLen x m.length).nx) = k := rfl
    have htake : (x.buf.take x.nx).length = x.nx := by simp [hb]; omega
    have hwl : (writeAt x.buf x.nx (m.take k)).length = B := by
      rw [← hb]; exact writeAt_length (by simp [hb]; omega)
    simp only [hk']
    by_cases hfull : x.nx + k = B
    · have hfull' : (addLen x m.length).nx + k = B := hfull
      simp only [hfull', if_true]
      refine ⟨?_, (hfields _ _ _).1, (hfields _ _ _).2.1, (hfields _ _ _).2.2⟩
      have hbuf : writeAt x.buf x.nx (m.take k) = (x.buf.take x.nx ++ m).take B := by
        have h1 := take_writeAt (buf := x.buf) (s := m.take k) (k := x.nx) (by omega)
        have h2 : x.nx + (m.take k).length = B := by simp; omega
        rw [h2, List.take_of_length_le (by omega)] at h1
        rw [h1, List.take_append, htake]
        have : B - x.nx = k := by omega
        rw [this, List.take_of_length_le (by omega : (x.buf.take x.nx).length ≤ B)]
      have hdrop : m.drop k = (x.buf.take x.nx ++ m).drop B := by
        rw [List.drop_append, htake]
        have : B - x.nx = k := by omega
        rw [this, List.drop_eq_nil_of_le (by omega : (x.buf.take x.nx).length ≤ B), List.nil_append]
      have hlen : (x.buf.take x.nx ++ m).length = (m.drop k).length + B := by
        simp only [List.length_append, htake, List.length_drop]; omega
      obtain ⟨c1, c2, c3, c4⟩ := carries_of_empty (f := f) hB
        (x := { processBlock f { addLen x m.length with
                  buf := writeAt (addLen x m.length).buf (addLen x m.length).nx (m.take k), nx := B }
                  (writeAt (addLen x m.length).buf (addLen x m.length).nx (m.take k)) with nx := 0 })
        rfl hwl (m.drop k)
      have hdiv : (x.buf.take x.nx ++ m).length / B = (m.drop k).length / B + 1 := by
        rw [hlen, Nat.add_div_right _ hB]
      refine ⟨?_, ?_, ?_, c4⟩
      · rw [c1, hdiv, chain_succ_front, ← hdrop, ← hbuf]; rfl
      · rw [c2, hlen, Nat.add_mod_right]
      · rw [c3, hdiv, Nat.succ_mul, Nat.add_comm, ← List.drop_drop, ← hdrop]
    · have hfull' : ¬ (addLen x m.length).nx + k = B := hfull
      simp only [hfull', if_false]
      have hkm : k = m.length := by omega
      have hsmall : (x.buf.take x.nx ++ m).length < B := by
        simp only [List.length_append, htake]; omega
      have hrest : m.drop k = [] := by simp [hkm]
      simp only [hrest, List.length_nil, Nat.zero_div]
      have htk : m.take k = m := by simp [hkm]
      refine ⟨⟨?_, ?_, ?_, ?_⟩, rfl, rfl, rfl⟩
      · rw [Nat.div_eq_of_lt hsmall]; rfl
      · rw [Nat.mod_eq_of_lt hsmall]
        simp only [absorbBlocks, storeTail, if_true, List.length_append, htake, hkm]; rfl
      · rw [Nat.div_eq_of_lt hsmall]
        simp only [absorbBlocks, storeTail, if_true, Nat.zero_mul, List.drop_zero]
        have := take_writeAt (buf := x.buf) (s := m) (k := x.nx) (by omega)
        rw [htk, hkm]; exact this
      · exact hwl

end Sys2Proof.Machine
end

