-- ==== Sys2Proof/Laws/Encoding.lean ====
section
/-! SUPPORT. The encoding as arithmetic: the fields of a word (spec R81 to R84) and the words of the four formats as
numbers, so that facts about encodings are facts about division and remainder. -/

namespace Sys2Proof

theorem opcOf_toNat (w : CmdWord) : (opcOf w).toNat = w.toNat % 2 ^ 8 := by simp [opcOf]

theorem ctxOf_eq (w : CmdWord) : ctxOf w = w.toNat / 2 ^ 8 % 2 ^ 4 := by simp [ctxOf, Nat.shiftRight_eq_div_pow]

theorem lenOf_eq (w : CmdWord) : lenOf w = w.toNat / 2 ^ 16 := by
  have := w.isLt
  simp [lenOf, Nat.shiftRight_eq_div_pow]; omega

theorem idxOf_eq (w : CmdWord) : idxOf w = w.toNat / 2 ^ 16 % 2 ^ 8 := by
  simp [idxOf, Nat.shiftRight_eq_div_pow]

theorem extract_eq_zero (w : CmdWord) (lo n : Nat) :
    (w.extractLsb' lo n == 0#n) = decide (w.toNat / 2 ^ lo % 2 ^ n = 0) := by
  rw [Bool.eq_iff_iff, beq_iff_eq, decide_eq_true_iff, ← BitVec.toNat_inj]
  simp [Nat.shiftRight_eq_div_pow]

theorem zeroFieldsZ_eq (w : CmdWord) : zeroFieldsZ w = decide (w.toNat / 2 ^ 8 = 0) := by
  have := w.isLt
  rw [zeroFieldsZ, extract_eq_zero, decide_eq_decide]; omega

theorem zeroFieldsC_eq (w : CmdWord) : zeroFieldsC w = decide (w.toNat / 2 ^ 12 = 0) := by
  have := w.isLt
  rw [zeroFieldsC, extract_eq_zero, decide_eq_decide]; omega

theorem zeroFieldsU_eq (w : CmdWord) : zeroFieldsU w = decide (w.toNat / 2 ^ 12 % 2 ^ 4 = 0) :=
  extract_eq_zero w 12 4

theorem zeroFieldsR_eq (w : CmdWord) :
    zeroFieldsR w = decide (w.toNat / 2 ^ 8 % 2 ^ 8 = 0 ∧ w.toNat / 2 ^ 24 = 0) := by
  have := w.isLt
  rw [zeroFieldsR, extract_eq_zero, extract_eq_zero, ← Bool.decide_and, decide_eq_decide]; omega

/-- A field put above a number that stays below it adds to it. -/
theorem or_shift_eq_add {a b k : Nat} (h : a < 2 ^ k) : a ||| b <<< k = a + b * 2 ^ k := by
  rw [Nat.or_comm, ← Nat.shiftLeft_add_eq_or_of_lt h, Nat.shiftLeft_eq, Nat.add_comm]

theorem encodeZ_toNat (o : BitVec 8) : (encodeZ o).toNat = o.toNat := by
  have := o.isLt
  simp [encodeZ, placeField]; omega

theorem encodeC_toNat (o : BitVec 8) (c : Nat) : (encodeC o c).toNat = o.toNat + c % 2 ^ 4 * 2 ^ 8 := by
  have ho := o.isLt
  have e : (encodeC o c).toNat = o.toNat ||| (c % 2 ^ 4) <<< 8 := by
    simp [encodeC, placeField, Nat.shiftLeft_eq]
    rw [Nat.mod_eq_of_lt (a := o.toNat) (by omega), Nat.mod_eq_of_lt (a := c % 16 * 256) (by omega)]
  rw [e, or_shift_eq_add ho]

theorem encodeR_toNat (o : BitVec 8) (k : Nat) : (encodeR o k).toNat = o.toNat + k % 2 ^ 8 * 2 ^ 16 := by
  have ho := o.isLt
  have e : (encodeR o k).toNat = o.toNat ||| (k % 2 ^ 8) <<< 16 := by
    simp [encodeR, placeField, Nat.shiftLeft_eq]
    rw [Nat.mod_eq_of_lt (a := o.toNat) (by omega), Nat.mod_eq_of_lt (a := k % 256 * 65536) (by omega)]
  rw [e, or_shift_eq_add (by omega)]

theorem encodeU_toNat (o : BitVec 8) (c n : Nat) :
    (encodeU o c n).toNat = o.toNat + c % 2 ^ 4 * 2 ^ 8 + n % 2 ^ 16 * 2 ^ 16 := by
  have ho := o.isLt
  have e : (encodeU o c n).toNat = (o.toNat ||| (c % 2 ^ 4) <<< 8) ||| (n % 2 ^ 16) <<< 16 := by
    simp [encodeU, placeField, Nat.shiftLeft_eq]
    rw [Nat.mod_eq_of_lt (a := o.toNat) (by omega), Nat.mod_eq_of_lt (a := c % 16 * 256) (by omega),
      Nat.mod_eq_of_lt (a := n % 65536 * 65536) (by omega)]
  rw [e, or_shift_eq_add ho, or_shift_eq_add (by omega)]

/-- Two words with the same number are the same word. -/
theorem word_ext {v w : CmdWord} (h : v.toNat = w.toNat) : v = w := BitVec.eq_of_toNat_eq h

/-- The opcode a word's number shows. -/
theorem opcOf_eq_iff (w : CmdWord) (o : BitVec 8) : opcOf w = o ↔ w.toNat % 2 ^ 8 = o.toNat := by
  rw [← opcOf_toNat, BitVec.toNat_inj]

variable {w : CmdWord}

theorem decode_ofMtxGen (h : w.toNat % 256 = 0x01) :
    decode w = ifZero w (decide (w.toNat / 2 ^ 8 = 0)) .mtxGen := by
  simp [decode, opcOf_eq_iff, h, zeroFieldsZ_eq]

theorem decode_ofLutDerive (h : w.toNat % 256 = 0x02) :
    decode w = ifZero w (decide (w.toNat / 2 ^ 8 = 0)) .lutDerive := by
  simp [decode, opcOf_eq_iff, h, zeroFieldsZ_eq]

theorem decode_ofCmpRef (h : w.toNat % 256 = 0x03) :
    decode w = ifZero w (decide (w.toNat / 2 ^ 8 = 0)) .cmpRef := by
  simp [decode, opcOf_eq_iff, h, zeroFieldsZ_eq]

theorem decode_ofCmpLut (h : w.toNat % 256 = 0x04) :
    decode w = ifZero w (decide (w.toNat / 2 ^ 8 = 0)) .cmpLut := by
  simp [decode, opcOf_eq_iff, h, zeroFieldsZ_eq]

theorem decode_ofMdInitRef (h : w.toNat % 256 = 0x10) :
    decode w = ifZero w (decide (w.toNat / 2 ^ 12 = 0)) (.mdInitRef (w.toNat / 2 ^ 8 % 2 ^ 4)) := by
  simp [decode, opcOf_eq_iff, h, zeroFieldsC_eq, ctxOf_eq]

theorem decode_ofMdInitLut (h : w.toNat % 256 = 0x11) :
    decode w = ifZero w (decide (w.toNat / 2 ^ 12 = 0)) (.mdInitLut (w.toNat / 2 ^ 8 % 2 ^ 4)) := by
  simp [decode, opcOf_eq_iff, h, zeroFieldsC_eq, ctxOf_eq]

theorem decode_ofMdUpdate (h : w.toNat % 256 = 0x12) :
    decode w = ifZero w (decide (w.toNat / 2 ^ 12 % 2 ^ 4 = 0)) (.mdUpdate (w.toNat / 2 ^ 8 % 2 ^ 4) (w.toNat / 2 ^ 16)) := by
  simp [decode, opcOf_eq_iff, h, zeroFieldsU_eq, ctxOf_eq, lenOf_eq]

theorem decode_ofMdFinal (h : w.toNat % 256 = 0x13) :
    decode w = ifZero w (decide (w.toNat / 2 ^ 12 = 0)) (.mdFinal (w.toNat / 2 ^ 8 % 2 ^ 4)) := by
  simp [decode, opcOf_eq_iff, h, zeroFieldsC_eq, ctxOf_eq]

theorem decode_ofMdReset (h : w.toNat % 256 = 0x14) :
    decode w = ifZero w (decide (w.toNat / 2 ^ 12 = 0)) (.mdReset (w.toNat / 2 ^ 8 % 2 ^ 4)) := by
  simp [decode, opcOf_eq_iff, h, zeroFieldsC_eq, ctxOf_eq]

theorem decode_ofCsrRd (h : w.toNat % 256 = 0x20) :
    decode w = ifZero w (decide (w.toNat / 2 ^ 8 % 2 ^ 8 = 0 ∧ w.toNat / 2 ^ 24 = 0)) (.csrRd (w.toNat / 2 ^ 16 % 2 ^ 8)) := by
  simp [decode, opcOf_eq_iff, h, zeroFieldsR_eq, idxOf_eq]

/-- Every opcode R86 does not list is illegal (R88, R89). -/
theorem decode_reserved (h : w.toNat % 256 ∉ [0x01, 0x02, 0x03, 0x04, 0x10, 0x11, 0x12, 0x13, 0x14, 0x20]) :
    decode w = .illegal (.reservedOpcode (opcOf w)) := by
  simp at h
  simp [decode, opcOf_eq_iff, h]

/-- The opcodes R86 lists, and the rest. -/
theorem opcode_cases (n : Nat) :
    n = 0x01 ∨ n = 0x02 ∨ n = 0x03 ∨ n = 0x04 ∨ n = 0x10 ∨ n = 0x11 ∨ n = 0x12 ∨ n = 0x13 ∨ n = 0x14 ∨ n = 0x20 ∨
      n ∉ [0x01, 0x02, 0x03, 0x04, 0x10, 0x11, 0x12, 0x13, 0x14, 0x20] := by
  simp; omega

theorem ifZero_command {ok : Bool} {i j : Instr} (h : ifZero w ok i = .command j) : ok = true ∧ i = j := by
  unfold ifZero at h
  split at h
  · next hk => cases h; exact ⟨hk, rfl⟩
  · cases h

theorem ifZero_illegal {ok : Bool} {i : Instr} {why : IllegalReason} (h : ifZero w ok i = .illegal why) :
    ok = false := by
  unfold ifZero at h
  split at h
  · cases h
  · next hk => simpa using hk

/-- Masking keeps the bits of the mask: the number of a word under each mask of R86. -/
theorem and_mask {n m x : Nat} (hn : n < 2 ^ 32) (hm : m < 2 ^ 32) (hx : x < 2 ^ 32)
    (h : ∀ k < 32, x.testBit k = (n.testBit k && m.testBit k)) : n &&& m = x := by
  have big : ∀ {a k : Nat}, a < 2 ^ 32 → ¬ k < 32 → a.testBit k = false := fun ha hk =>
    Nat.testBit_lt_two_pow (lt_of_lt_of_le ha (Nat.pow_le_pow_right (by omega) (by omega)))
  apply Nat.eq_of_testBit_eq
  intro k
  rw [Nat.testBit_and]
  by_cases hk : k < 32
  · exact (h k hk).symm
  · simp [big hn hk, big hm hk, big hx hk]

theorem and_maskZ {n : Nat} (hn : n < 2 ^ 32) : n &&& 4294967295 = n :=
  and_mask hn (by omega) hn fun k hk => by interval_cases k <;> simp [Nat.testBit]

theorem and_maskC {n : Nat} (hn : n < 2 ^ 32) : n &&& 4294963455 = n % 256 + n / 4096 * 4096 := by
  have e : n % 256 + n / 4096 * 4096 = n % 2 ^ 8 ||| (n / 2 ^ 12) <<< 12 := by
    rw [or_shift_eq_add (by omega)]; norm_num
  refine and_mask hn (by omega) (by omega) fun k hk => ?_
  rw [e, Nat.testBit_or, Nat.testBit_mod_two_pow, Nat.testBit_shiftLeft, Nat.testBit_div_two_pow]
  interval_cases k <;> simp [Nat.testBit]

theorem and_maskU {n : Nat} (hn : n < 2 ^ 32) : n &&& 61695 = n % 256 + n / 4096 % 16 * 4096 := by
  have e : n % 256 + n / 4096 % 16 * 4096 = n % 2 ^ 8 ||| (n / 2 ^ 12 % 2 ^ 4) <<< 12 := by
    rw [or_shift_eq_add (by omega)]; norm_num
  refine and_mask hn (by omega) (by omega) fun k hk => ?_
  rw [e, Nat.testBit_or, Nat.testBit_mod_two_pow, Nat.testBit_shiftLeft, Nat.testBit_mod_two_pow,
    Nat.testBit_div_two_pow]
  interval_cases k <;> simp [Nat.testBit]

theorem and_maskR {n : Nat} (hn : n < 2 ^ 32) : n &&& 4278255615 = n % 65536 + n / 16777216 * 16777216 := by
  have e : n % 65536 + n / 16777216 * 16777216 = n % 2 ^ 16 ||| (n / 2 ^ 24) <<< 24 := by
    rw [or_shift_eq_add (by omega)]; norm_num
  refine and_mask hn (by omega) (by omega) fun k hk => ?_
  rw [e, Nat.testBit_or, Nat.testBit_mod_two_pow, Nat.testBit_shiftLeft, Nat.testBit_div_two_pow]
  interval_cases k <;> simp [Nat.testBit]

/-- A row of the opcode map selects a word by numbers. -/
theorem selects_eq (r : OpRow) (w : CmdWord) :
    r.selects w = decide (w.toNat &&& r.mask.toNat = r.pattern.toNat) := by
  rw [OpRow.selects, Bool.eq_iff_iff, beq_iff_eq, decide_eq_true_iff, ← BitVec.toNat_inj, BitVec.toNat_and]

end Sys2Proof
end

