-- ==== Sys2Proof/Laws/State.lean ====
section
/-! SUPPORT. Each named update of the state, field by field: what it writes and what it leaves. -/

namespace Sys2Proof.Machine

variable (s : State)

@[simp] theorem raiseFault_cfg (k : Cause) : (raiseFault s k).cfg = s.cfg := rfl
@[simp] theorem raiseFault_matrixValid (k : Cause) : (raiseFault s k).matrixValid = s.matrixValid := rfl
@[simp] theorem raiseFault_matrix (k : Cause) : (raiseFault s k).matrix = s.matrix := rfl
@[simp] theorem raiseFault_lutValid (k : Cause) : (raiseFault s k).lutValid = s.lutValid := rfl
@[simp] theorem raiseFault_table (k : Cause) : (raiseFault s k).table = s.table := rfl
@[simp] theorem raiseFault_ctxs (k : Cause) : (raiseFault s k).ctxs = s.ctxs := rfl
@[simp] theorem raiseFault_faulted (k : Cause) : (raiseFault s k).faulted = true := rfl
@[simp] theorem raiseFault_cause (k : Cause) : (raiseFault s k).cause = causeCode k := rfl
@[simp] theorem raiseFault_fcmd (k : Cause) : (raiseFault s k).fcmd = s.cmd.word := rfl
@[simp] theorem raiseFault_cmd (k : Cause) : (raiseFault s k).cmd = s.cmd := rfl
@[simp] theorem raiseFault_stream (k : Cause) : (raiseFault s k).stream = s.stream := rfl
@[simp] theorem raiseFault_entropy (k : Cause) : (raiseFault s k).entropy = s.entropy := rfl
@[simp] theorem raiseFault_result (k : Cause) : (raiseFault s k).result = s.result := rfl

@[simp] theorem emit_cfg (b : List Byte) : (emit s b).cfg = s.cfg := rfl
@[simp] theorem emit_matrixValid (b : List Byte) : (emit s b).matrixValid = s.matrixValid := rfl
@[simp] theorem emit_matrix (b : List Byte) : (emit s b).matrix = s.matrix := rfl
@[simp] theorem emit_lutValid (b : List Byte) : (emit s b).lutValid = s.lutValid := rfl
@[simp] theorem emit_table (b : List Byte) : (emit s b).table = s.table := rfl
@[simp] theorem emit_ctxs (b : List Byte) : (emit s b).ctxs = s.ctxs := rfl
@[simp] theorem emit_faulted (b : List Byte) : (emit s b).faulted = s.faulted := rfl
@[simp] theorem emit_cause (b : List Byte) : (emit s b).cause = s.cause := rfl
@[simp] theorem emit_fcmd (b : List Byte) : (emit s b).fcmd = s.fcmd := rfl
@[simp] theorem emit_cmd (b : List Byte) : (emit s b).cmd = s.cmd := rfl
@[simp] theorem emit_stream (b : List Byte) : (emit s b).stream = s.stream := rfl
@[simp] theorem emit_entropy (b : List Byte) : (emit s b).entropy = s.entropy := rfl
@[simp] theorem emit_result (b : List Byte) : (emit s b).result = s.result ++ b := rfl

@[simp] theorem setCtx_cfg (c : Nat) (x : Ctx) : (setCtx s c x).cfg = s.cfg := rfl
@[simp] theorem setCtx_matrixValid (c : Nat) (x : Ctx) : (setCtx s c x).matrixValid = s.matrixValid := rfl
@[simp] theorem setCtx_matrix (c : Nat) (x : Ctx) : (setCtx s c x).matrix = s.matrix := rfl
@[simp] theorem setCtx_lutValid (c : Nat) (x : Ctx) : (setCtx s c x).lutValid = s.lutValid := rfl
@[simp] theorem setCtx_table (c : Nat) (x : Ctx) : (setCtx s c x).table = s.table := rfl
@[simp] theorem setCtx_ctxs (c : Nat) (x : Ctx) : (setCtx s c x).ctxs = s.ctxs.set c x := rfl
@[simp] theorem setCtx_faulted (c : Nat) (x : Ctx) : (setCtx s c x).faulted = s.faulted := rfl
@[simp] theorem setCtx_cause (c : Nat) (x : Ctx) : (setCtx s c x).cause = s.cause := rfl
@[simp] theorem setCtx_fcmd (c : Nat) (x : Ctx) : (setCtx s c x).fcmd = s.fcmd := rfl
@[simp] theorem setCtx_cmd (c : Nat) (x : Ctx) : (setCtx s c x).cmd = s.cmd := rfl
@[simp] theorem setCtx_stream (c : Nat) (x : Ctx) : (setCtx s c x).stream = s.stream := rfl
@[simp] theorem setCtx_entropy (c : Nat) (x : Ctx) : (setCtx s c x).entropy = s.entropy := rfl
@[simp] theorem setCtx_result (c : Nat) (x : Ctx) : (setCtx s c x).result = s.result := rfl

@[simp] theorem setMatrix_cfg (a : Matrix) : (setMatrix s a).cfg = s.cfg := rfl
@[simp] theorem setMatrix_matrixValid (a : Matrix) : (setMatrix s a).matrixValid = true := rfl
@[simp] theorem setMatrix_matrix (a : Matrix) : (setMatrix s a).matrix = a := rfl
@[simp] theorem setMatrix_lutValid (a : Matrix) : (setMatrix s a).lutValid = s.lutValid := rfl
@[simp] theorem setMatrix_table (a : Matrix) : (setMatrix s a).table = s.table := rfl
@[simp] theorem setMatrix_ctxs (a : Matrix) : (setMatrix s a).ctxs = s.ctxs := rfl
@[simp] theorem setMatrix_faulted (a : Matrix) : (setMatrix s a).faulted = s.faulted := rfl
@[simp] theorem setMatrix_cause (a : Matrix) : (setMatrix s a).cause = s.cause := rfl
@[simp] theorem setMatrix_fcmd (a : Matrix) : (setMatrix s a).fcmd = s.fcmd := rfl
@[simp] theorem setMatrix_cmd (a : Matrix) : (setMatrix s a).cmd = s.cmd := rfl
@[simp] theorem setMatrix_stream (a : Matrix) : (setMatrix s a).stream = s.stream := rfl
@[simp] theorem setMatrix_entropy (a : Matrix) : (setMatrix s a).entropy = s.entropy := rfl
@[simp] theorem setMatrix_result (a : Matrix) : (setMatrix s a).result = s.result := rfl

@[simp] theorem setTable_cfg (t : Table) : (setTable s t).cfg = s.cfg := rfl
@[simp] theorem setTable_matrixValid (t : Table) : (setTable s t).matrixValid = s.matrixValid := rfl
@[simp] theorem setTable_matrix (t : Table) : (setTable s t).matrix = s.matrix := rfl
@[simp] theorem setTable_lutValid (t : Table) : (setTable s t).lutValid = true := rfl
@[simp] theorem setTable_table (t : Table) : (setTable s t).table = t := rfl
@[simp] theorem setTable_ctxs (t : Table) : (setTable s t).ctxs = s.ctxs := rfl
@[simp] theorem setTable_faulted (t : Table) : (setTable s t).faulted = s.faulted := rfl
@[simp] theorem setTable_cause (t : Table) : (setTable s t).cause = s.cause := rfl
@[simp] theorem setTable_fcmd (t : Table) : (setTable s t).fcmd = s.fcmd := rfl
@[simp] theorem setTable_cmd (t : Table) : (setTable s t).cmd = s.cmd := rfl
@[simp] theorem setTable_stream (t : Table) : (setTable s t).stream = s.stream := rfl
@[simp] theorem setTable_entropy (t : Table) : (setTable s t).entropy = s.entropy := rfl
@[simp] theorem setTable_result (t : Table) : (setTable s t).result = s.result := rfl

@[simp] theorem takeCommand_cfg (c : Command) (r : List HostMove) : (takeCommand s c r).cfg = s.cfg := rfl
@[simp] theorem takeCommand_matrixValid (c : Command) (r : List HostMove) :
    (takeCommand s c r).matrixValid = s.matrixValid := rfl
@[simp] theorem takeCommand_matrix (c : Command) (r : List HostMove) : (takeCommand s c r).matrix = s.matrix := rfl
@[simp] theorem takeCommand_lutValid (c : Command) (r : List HostMove) :
    (takeCommand s c r).lutValid = s.lutValid := rfl
@[simp] theorem takeCommand_table (c : Command) (r : List HostMove) : (takeCommand s c r).table = s.table := rfl
@[simp] theorem takeCommand_ctxs (c : Command) (r : List HostMove) : (takeCommand s c r).ctxs = s.ctxs := rfl
@[simp] theorem takeCommand_faulted (c : Command) (r : List HostMove) : (takeCommand s c r).faulted = s.faulted := rfl
@[simp] theorem takeCommand_cause (c : Command) (r : List HostMove) : (takeCommand s c r).cause = s.cause := rfl
@[simp] theorem takeCommand_fcmd (c : Command) (r : List HostMove) : (takeCommand s c r).fcmd = s.fcmd := rfl
@[simp] theorem takeCommand_cmd (c : Command) (r : List HostMove) : (takeCommand s c r).cmd = c := rfl
@[simp] theorem takeCommand_stream (c : Command) (r : List HostMove) : (takeCommand s c r).stream = r := rfl
@[simp] theorem takeCommand_entropy (c : Command) (r : List HostMove) : (takeCommand s c r).entropy = s.entropy := rfl
@[simp] theorem takeCommand_result (c : Command) (r : List HostMove) : (takeCommand s c r).result = s.result := rfl

@[simp] theorem hardwareReset_cfg : (hardwareReset s).cfg = s.cfg := rfl
@[simp] theorem hardwareReset_matrixValid : (hardwareReset s).matrixValid = false := rfl
@[simp] theorem hardwareReset_matrix :
    (hardwareReset s).matrix = List.replicate s.cfg.N (List.replicate s.cfg.M 0) := rfl
@[simp] theorem hardwareReset_lutValid : (hardwareReset s).lutValid = false := rfl
@[simp] theorem hardwareReset_table :
    (hardwareReset s).table = List.replicate s.cfg.N (List.replicate s.cfg.inBytes (List.replicate byteValues 0)) := rfl
@[simp] theorem hardwareReset_ctxs : (hardwareReset s).ctxs = List.replicate s.cfg.NUM_CTX (Ctx.unbound s.cfg) := rfl
@[simp] theorem hardwareReset_faulted : (hardwareReset s).faulted = false := rfl
@[simp] theorem hardwareReset_cause : (hardwareReset s).cause = 0 := rfl
@[simp] theorem hardwareReset_fcmd : (hardwareReset s).fcmd = 0 := rfl
@[simp] theorem hardwareReset_cmd : (hardwareReset s).cmd = s.cmd := rfl
@[simp] theorem hardwareReset_stream : (hardwareReset s).stream = s.stream := rfl
@[simp] theorem hardwareReset_entropy : (hardwareReset s).entropy = s.entropy := rfl
@[simp] theorem hardwareReset_result : (hardwareReset s).result = s.result := rfl

@[simp] theorem resetWith_cfg (g : Config) : (State.resetWith g).cfg = g := rfl
@[simp] theorem resetWith_matrixValid (g : Config) : (State.resetWith g).matrixValid = false := rfl
@[simp] theorem resetWith_matrix (g : Config) :
    (State.resetWith g).matrix = List.replicate g.N (List.replicate g.M 0) := rfl
@[simp] theorem resetWith_lutValid (g : Config) : (State.resetWith g).lutValid = false := rfl
@[simp] theorem resetWith_table (g : Config) :
    (State.resetWith g).table = List.replicate g.N (List.replicate g.inBytes (List.replicate byteValues 0)) := rfl
@[simp] theorem resetWith_ctxs (g : Config) :
    (State.resetWith g).ctxs = List.replicate g.NUM_CTX (Ctx.unbound g) := rfl
@[simp] theorem resetWith_faulted (g : Config) : (State.resetWith g).faulted = false := rfl
@[simp] theorem resetWith_cause (g : Config) : (State.resetWith g).cause = 0 := rfl
@[simp] theorem resetWith_fcmd (g : Config) : (State.resetWith g).fcmd = 0 := rfl
@[simp] theorem resetWith_stream (g : Config) : (State.resetWith g).stream = [] := rfl
@[simp] theorem resetWith_entropy (g : Config) : (State.resetWith g).entropy = [] := rfl
@[simp] theorem resetWith_result (g : Config) : (State.resetWith g).result = [] := rfl

@[simp] theorem zeroed_bound (g : Config) (b : Bool) (c : Compressor) : (Ctx.zeroed g b c).bound = b := rfl
@[simp] theorem zeroed_sel (g : Config) (b : Bool) (c : Compressor) : (Ctx.zeroed g b c).sel = c := rfl
@[simp] theorem zeroed_cv (g : Config) (b : Bool) (c : Compressor) : (Ctx.zeroed g b c).cv = List.replicate g.N 0 := rfl
@[simp] theorem zeroed_buf (g : Config) (b : Bool) (c : Compressor) : (Ctx.zeroed g b c).buf = List.replicate g.B 0 := rfl
@[simp] theorem zeroed_nx (g : Config) (b : Bool) (c : Compressor) : (Ctx.zeroed g b c).nx = 0 := rfl
@[simp] theorem zeroed_len (g : Config) (b : Bool) (c : Compressor) : (Ctx.zeroed g b c).len = 0 := rfl

/-- Writing a context and emitting touch different fields. -/
theorem emit_setCtx (c : Nat) (x : Ctx) (b : List Byte) : emit (setCtx s c x) b = setCtx (emit s b) c x := rfl

end Sys2Proof.Machine
end

