-- ==== Sys2Proof/Laws/Ops.lean ====
section
/-! SUPPORT. What each shared operation over the state can do, once: the checks (spec R207), performing and discarding a
command (R203, R205), the entropy request (R41). -/

namespace Sys2Proof.Machine

variable {s t : State} {effect : Result} {checks : List Check} {k : Cause}

/-- No check fails: each condition is false. -/
theorem firstFailure_none : firstFailure checks = none ↔ ∀ p ∈ checks, p.1 = false := by
  induction checks with
  | nil => simp [firstFailure]
  | cons p rest ih => obtain ⟨b, k⟩ := p; cases b <;> simp [firstFailure, ih]

theorem perform_faulted (h : s.faulted = true) : perform s checks effect = .next s := by simp [perform, h, discardCommand]

theorem perform_fails (h : s.faulted = false) (hc : firstFailure checks = some k) :
    perform s checks effect = .next (raiseFault s k) := by simp [perform, h, guarded, hc]

theorem perform_passes (h : s.faulted = false) (hc : firstFailure checks = none) :
    perform s checks effect = effect := by simp [perform, h, guarded, hc]

/-- Everything `perform` can do: discard while faulted, raise the first failing check's fault, or take the effect. -/
theorem perform_cases (s : State) (checks : List Check) (effect : Result) :
    (s.faulted = true ∧ perform s checks effect = .next s) ∨
    (s.faulted = false ∧ ∃ k, firstFailure checks = some k ∧
      perform s checks effect = .next (raiseFault s k)) ∨
    (s.faulted = false ∧ firstFailure checks = none ∧ perform s checks effect = effect) := by
  cases hf : s.faulted with
  | true => exact .inl ⟨rfl, perform_faulted hf⟩
  | false =>
    cases hc : firstFailure checks with
    | some k => exact .inr (.inl ⟨rfl, k, rfl, perform_fails hf hc⟩)
    | none => exact .inr (.inr ⟨rfl, rfl, perform_passes hf hc⟩)

/-- Everything an entropy request can do. -/
theorem entropyRead_cases (s : State) (n : Nat) (goOn : List Byte → State → Result) :
    (s.entropy = [] ∧ entropyRead s n goOn = .fault .entropyUnanswered) ∨
    (∃ rest, s.entropy = .err :: rest ∧
      entropyRead s n goOn = .next (raiseFault { s with entropy := rest } .entropy)) ∨
    (∃ e rest, s.entropy = .ok e :: rest ∧ e.length = n ∧
      entropyRead s n goOn = goOn e { s with entropy := rest }) ∨
    (∃ e rest, s.entropy = .ok e :: rest ∧ e.length ≠ n ∧
      entropyRead s n goOn = .refused .entropyAnswerLength) := by
  cases he : s.entropy with
  | nil => exact .inl ⟨rfl, by simp [entropyRead, he]⟩
  | cons a rest =>
    cases a with
    | err => exact .inr (.inl ⟨rest, rfl, by simp [entropyRead, he]⟩)
    | ok e =>
      by_cases hl : e.length = n
      · exact .inr (.inr (.inl ⟨e, rest, rfl, hl, by simp [entropyRead, he, hl]⟩))
      · exact .inr (.inr (.inr ⟨e, rest, rfl, hl, by simp [entropyRead, he, hl]⟩))

theorem getCtx_of_some {c : Nat} {x : Ctx} (h : s.ctxs[c]? = some x) : getCtx s c = x := by
  simp [getCtx, List.getD, h]

end Sys2Proof.Machine
end

