-- ==== Sys2Proof/Laws/Exec.lean ====
section
/-! SUPPORT. Everything a command can do, once: the inversion of `exec` and of `step`, from which the frames and the
invariants follow without unfolding a meaning again. -/

namespace Sys2Proof.Machine

/-- What performing a command in state `s` can lead to. -/
inductive Did (s : State) : Instr → State → Prop where
  /-- Discarded while FAULTED = 1 (R205). -/
  | discarded (i : Instr) (hf : s.faulted = true) : Did s i s
  /-- A fault other than MTX.GEN's entropy fault (R203). -/
  | faulted (i : Instr) (k : Cause) (hf : s.faulted = false) : Did s i (raiseFault s k)
  /-- MTX.GEN's entropy request answered `err` (R102). -/
  | entropyFault (rest : List EntropyAnswer) (hf : s.faulted = false) (hm : s.matrixValid = false)
      (hp : s.cmd.pay = []) (he : s.entropy = .err :: rest) :
      Did s .mtxGen (raiseFault { s with entropy := rest } .entropy)
  /-- MTX.GEN fills the matrix (R100). -/
  | filled (e : List Byte) (rest : List EntropyAnswer) (hf : s.faulted = false) (hm : s.matrixValid = false)
      (hp : s.cmd.pay = []) (he : s.entropy = .ok e :: rest) (hl : e.length = s.cfg.entBytes) :
      Did s .mtxGen (setMatrix { s with entropy := rest } (fillMatrix s.cfg e))
  /-- LUT.DERIVE derives the table (R104). -/
  | derived (hf : s.faulted = false) (hm : s.matrixValid = true) (hp : s.cmd.pay = []) :
      Did s .lutDerive (setTable s (deriveTable s.cfg s.matrix))
  /-- CMP.REF emits (R127). -/
  | compressedRef (hf : s.faulted = false) (hm : s.matrixValid = true) (hp : s.cmd.pay.length = s.cfg.inBytes) :
      Did s .cmpRef (emit s (ser (compressRef s.cfg s.matrix s.cmd.pay)))
  /-- CMP.LUT emits (R128). -/
  | compressedLut (hf : s.faulted = false) (hm : s.lutValid = true) (hp : s.cmd.pay.length = s.cfg.inBytes) :
      Did s .cmpLut (emit s (ser (compressLut s.cfg s.table s.cmd.pay)))
  /-- MD.INIT.REF constructs (R145). -/
  | boundRef (c : Nat) (hf : s.faulted = false) (hc : c < s.cfg.NUM_CTX) (hm : s.matrixValid = true)
      (hp : s.cmd.pay = []) : Did s (.mdInitRef c) (setCtx s c (Ctx.zeroed s.cfg true .ref))
  /-- MD.INIT.LUT constructs (R146). -/
  | boundLut (c : Nat) (hf : s.faulted = false) (hc : c < s.cfg.NUM_CTX) (hm : s.lutValid = true)
      (hp : s.cmd.pay = []) : Did s (.mdInitLut c) (setCtx s c (Ctx.zeroed s.cfg true .lut))
  /-- MD.UPDATE absorbs (R147). -/
  | absorbed (c n : Nat) (hf : s.faulted = false) (hc : c < s.cfg.NUM_CTX) (hb : (getCtx s c).bound = true)
      (hp : s.cmd.pay.length = n) :
      Did s (.mdUpdate c n)
        (setCtx s c (absorb s.cfg.B (compressOf s (getCtx s c).sel) (getCtx s c) s.cmd.pay))
  /-- MD.FINAL emits the digest (R152). -/
  | digested (c : Nat) (d : List Byte) (hf : s.faulted = false) (hc : c < s.cfg.NUM_CTX)
      (hb : (getCtx s c).bound = true) (hp : s.cmd.pay = [])
      (hd : finalize s.cfg.B (compressOf s (getCtx s c).sel) (getCtx s c) = some d) :
      Did s (.mdFinal c) (emit s d)
  /-- MD.RESET clears (R156). -/
  | cleared (c : Nat) (hf : s.faulted = false) (hc : c < s.cfg.NUM_CTX) (hb : (getCtx s c).bound = true)
      (hp : s.cmd.pay = []) :
      Did s (.mdReset c) (setCtx s c (Ctx.zeroed s.cfg true (getCtx s c).sel))
  /-- CSR.RD emits a register, faulted or not (R180, R181). -/
  | read (k : Nat) (hp : s.cmd.pay = []) : Did s (.csrRd k) (emit s (le64 (csr s k)))

variable {s t : State}

/-- The inversion of `exec`. -/
theorem exec_did {i : Instr} (h : exec i s = .next t) : Did s i t := by
  have hperform : ∀ checks effect, perform s checks effect = .next t →
      (effect = .next t → s.faulted = false → firstFailure checks = none → Did s i t) → Did s i t := by
    intro checks effect hp hgo
    rcases perform_cases s checks effect with ⟨hf, he⟩ | ⟨hf, k, _, he⟩ | ⟨hf, hn, he⟩
    · rw [he] at hp; cases hp; exact .discarded i hf
    · rw [he] at hp; cases hp; exact .faulted i k hf
    · exact hgo (he ▸ hp) hf hn
  cases i with
  | mtxGen =>
    refine hperform _ _ h fun h hf hn => ?_
    simp [firstFailure_none, checkMatrixEmpty, checkPayload] at hn
    rcases entropyRead_cases s s.cfg.entBytes
        (fun e t => .next (setMatrix t (fillMatrix s.cfg e))) with
      ⟨_, he⟩ | ⟨rest, hr, he⟩ | ⟨e, rest, hr, hl, he⟩ | ⟨_, _, _, _, he⟩
    · rw [he] at h; cases h
    · rw [he] at h; cases h; exact .entropyFault rest hf hn.1 hn.2 hr
    · rw [he] at h; cases h; exact .filled e rest hf hn.1 hn.2 hr hl
    · rw [he] at h; cases h
  | lutDerive =>
    refine hperform _ _ h fun h hf hn => ?_
    simp [firstFailure_none, checkMatrixReady, checkPayload] at hn
    cases h; exact .derived hf hn.1 hn.2
  | cmpRef =>
    refine hperform _ _ h fun h hf hn => ?_
    simp [firstFailure_none, checkMatrixReady, checkPayload] at hn
    cases h; exact .compressedRef hf hn.1 hn.2
  | cmpLut =>
    refine hperform _ _ h fun h hf hn => ?_
    simp [firstFailure_none, checkLutReady, checkPayload] at hn
    cases h; exact .compressedLut hf hn.1 hn.2
  | mdInitRef c =>
    refine hperform _ _ h fun h hf hn => ?_
    simp [firstFailure_none, checkCtxRange, checkMatrixReady, checkPayload] at hn
    cases h; exact .boundRef c hf hn.1 hn.2.1 hn.2.2
  | mdInitLut c =>
    refine hperform _ _ h fun h hf hn => ?_
    simp [firstFailure_none, checkCtxRange, checkLutReady, checkPayload] at hn
    cases h; exact .boundLut c hf hn.1 hn.2.1 hn.2.2
  | mdUpdate c n =>
    refine hperform _ _ h fun h hf hn => ?_
    simp [firstFailure_none, checkCtxRange, checkCtxBound, checkPayload] at hn
    cases h; exact .absorbed c n hf hn.1 hn.2.1 hn.2.2
  | mdFinal c =>
    refine hperform _ _ h fun h hf hn => ?_
    simp [firstFailure_none, checkCtxRange, checkCtxBound, checkPayload] at hn
    cases hd : finalize s.cfg.B (compressOf s (getCtx s c).sel) (getCtx s c) with
    | none => rw [hd] at h; cases h; exact .faulted _ _ hf
    | some d => rw [hd] at h; cases h; exact .digested c d hf hn.1 hn.2.1 hn.2.2 hd
  | mdReset c =>
    refine hperform _ _ h fun h hf hn => ?_
    simp [firstFailure_none, checkCtxRange, checkCtxBound, checkPayload] at hn
    rw [hn.2.1] at h
    cases h; exact .cleared c hf hn.1 hn.2.1 hn.2.2
  | csrRd k =>
    simp only [exec, execCsrRd, guarded, checkPayload, firstFailure] at h
    by_cases hp : s.cmd.pay = []
    · simp [hp] at h; cases h; exact .read k hp
    · cases hf : s.faulted <;> simp [hf, hp] at h <;> cases h
      · exact .faulted _ _ hf
      · exact .discarded _ hf

/-- The inversion of `step`: idle, reset, a discarded or faulting illegal word, or a performed command. -/
theorem step_cases (h : step s = .next t) :
    s.cfg.Admitted ∧
    ((s.stream = [] ∧ t = s) ∨
     (∃ rest, s.stream = .rst :: rest ∧ t = takeReset s rest) ∨
     (∃ c rest why, s.stream = .command c :: rest ∧ decode c.word = .illegal why ∧
       ((s.faulted = true ∧ t = takeCommand s c rest) ∨
        (s.faulted = false ∧ t = raiseFault (takeCommand s c rest) .illegalCommand))) ∨
     (∃ c rest i, s.stream = .command c :: rest ∧ decode c.word = .command i ∧
       exec i (takeCommand s c rest) = .next t)) := by
  unfold step at h
  split at h
  · next ha =>
    refine ⟨ha, ?_⟩
    split at h
    · next hs => cases h; exact .inl ⟨hs, rfl⟩
    · next rest hs => cases h; exact .inr (.inl ⟨rest, hs, rfl⟩)
    · next c rest hs =>
      split at h
      · next i hd => exact .inr (.inr (.inr ⟨c, rest, i, hs, hd, h⟩))
      · next why hd =>
        refine .inr (.inr (.inl ⟨c, rest, why, hs, hd, ?_⟩))
        cases hf : s.faulted
        · rw [execIllegal, perform_fails (s := takeCommand s c rest) (k := .illegalCommand) hf rfl] at h
          cases h; exact .inr ⟨rfl, rfl⟩
        · rw [execIllegal, perform_faulted (s := takeCommand s c rest) hf] at h
          cases h; exact .inl ⟨rfl, rfl⟩
  · cases h

end Sys2Proof.Machine
end

