-- ==== Sys2Proof/Laws/PerInstr.lean ====
section
/-! SUPPORT. The statements made once per instruction: every command's word is selected by the row of the opcode map
(spec R86) that carries its mnemonic. -/

namespace Sys2Proof.Laws.EncodesRow

/-- The row of R86 with the command's mnemonic selects the command's word. -/
def Statement (i : Instr) : Prop :=
  i.wellFormed = true → ∃ r ∈ opcodeMap, r.mnemonic = i.mnemonic ∧ r.selects (encode i) = true

theorem mtxGen : Statement .mtxGen := fun _ => by decide

theorem lutDerive : Statement .lutDerive := fun _ => by decide

theorem cmpRef : Statement .cmpRef := fun _ => by decide

theorem cmpLut : Statement .cmpLut := fun _ => by decide

/-- A row of format C selects the words of its opcode. -/
theorem formatC {name : String} {o : BitVec 8} {p : CmdWord} (c : Nat) (hp : p.toNat = o.toNat)
    (hr : (⟨name, p, 0xFFFFF0FF⟩ : OpRow) ∈ opcodeMap) :
    ∃ r ∈ opcodeMap, r.mnemonic = name ∧ r.selects (encodeC o c) = true := by
  refine ⟨_, hr, rfl, ?_⟩
  have ho := o.isLt
  rw [selects_eq, decide_eq_true_iff]
  show (encodeC o c).toNat &&& 4294963455 = p.toNat
  rw [and_maskC (encodeC o c).isLt, encodeC_toNat, hp]
  omega

theorem mdInitRef (c : Nat) : Statement (.mdInitRef c) := fun _ =>
  formatC (name := "MD.INIT.REF") (p := 0x00000010) c rfl (by simp [opcodeMap])

theorem mdInitLut (c : Nat) : Statement (.mdInitLut c) := fun _ =>
  formatC (name := "MD.INIT.LUT") (p := 0x00000011) c rfl (by simp [opcodeMap])

theorem mdUpdate (c n : Nat) : Statement (.mdUpdate c n) := fun _ => by
  refine ⟨⟨"MD.UPDATE", 0x00000012, 0x0000F0FF⟩, by simp [opcodeMap], rfl, ?_⟩
  rw [selects_eq, decide_eq_true_iff]
  show (encodeU 0x12 c n).toNat &&& 61695 = 18
  rw [and_maskU (encodeU 0x12 c n).isLt, encodeU_toNat, show (0x12 : BitVec 8).toNat = 18 from rfl]
  omega

theorem mdFinal (c : Nat) : Statement (.mdFinal c) := fun _ =>
  formatC (name := "MD.FINAL") (p := 0x00000013) c rfl (by simp [opcodeMap])

theorem mdReset (c : Nat) : Statement (.mdReset c) := fun _ =>
  formatC (name := "MD.RESET") (p := 0x00000014) c rfl (by simp [opcodeMap])

theorem csrRd (k : Nat) : Statement (.csrRd k) := fun _ => by
  refine ⟨⟨"CSR.RD", 0x00000020, 0xFF00FFFF⟩, by simp [opcodeMap], rfl, ?_⟩
  rw [selects_eq, decide_eq_true_iff]
  show (encodeR 0x20 k).toNat &&& 4278255615 = 32
  rw [and_maskR (encodeR 0x20 k).isLt, encodeR_toNat, show (0x20 : BitVec 8).toNat = 32 from rfl]
  omega

end Sys2Proof.Laws.EncodesRow
end

