-- ==== Sys2Proof/Laws/Run.lean ====
section
/-! SUPPORT. Runs of several steps as the host's interface takes them, one step and two runs at a time. -/

namespace Sys2Proof.Machine

/-- Everything a run of one step more can do. -/
theorem run_step (M : Host.Core) (k : Nat) (s : M.State) :
    (∃ t, M.step s = .next t ∧ M.run (k + 1) s = M.run k t) ∨
    (∃ r, M.step s = .fault r ∧ M.run (k + 1) s = .fault r) ∨
    (∃ r, M.step s = .refused r ∧ M.run (k + 1) s = .refused r) := by
  rw [Host.Core.run]
  cases h : M.step s with
  | next t => exact .inl ⟨t, rfl, rfl⟩
  | fault r => exact .inr (.inl ⟨r, rfl, rfl⟩)
  | refused r => exact .inr (.inr ⟨r, rfl, rfl⟩)

/-- A run whose first step goes on is the run of the rest. -/
theorem run_succ (M : Host.Core) {k : Nat} {s t : M.State} (h : M.step s = .next t) :
    M.run (k + 1) s = M.run k t := by
  rw [Host.Core.run, h]

/-- Two runs in a row are one run. -/
theorem run_add (M : Host.Core) (j k : Nat) : ∀ {s t : M.State}, M.run k s = .next t →
    M.run (k + j) s = M.run j t := by
  induction k with
  | zero => intro s t h; cases h; rw [Nat.zero_add]
  | succ k ih =>
    intro s t h
    rw [Nat.succ_add]
    rcases run_step M k s with ⟨u, hs, hr⟩ | ⟨r, _, hr⟩ | ⟨r, _, hr⟩
    · rw [run_succ M hs, ih (hr ▸ h)]
    · rw [hr] at h; cases h
    · rw [hr] at h; cases h

end Sys2Proof.Machine
end

