-- ==== Sys2Proof/Laws/Sums.lean ====
section
/-! SUPPORT. The sums of the matrix and the compressors (spec R105, R121, R122) as `Finset` sums, and what the grids hold
at a place. -/

namespace Sys2Proof.Machine

theorem sumTo_eq_sum (n : Nat) (f : Nat → Word) : sumTo n f = ∑ k ∈ Finset.range n, f k := by
  rw [Finset.sum_eq_multiset_sum]; rfl

/-- A set bit position, as arithmetic on the byte's number (R12). -/
theorem bit_eq {v : Byte} {p : Nat} : bit v p = decide (v.toNat / 2 ^ (7 - p) % 2 = 1) := by
  simp [bit, BitVec.getLsbD, Nat.testBit_eq_decide_div_mod_eq]

/-- A sum over bit positions that adds a cell where the bit is set. -/
theorem sumTo_bits (v : Byte) (f : Nat → Word) :
    sumTo 8 (fun p => if bit v p then f p else 0) =
      ∑ p ∈ (Finset.range 8).filter (fun p => v.toNat / 2 ^ (7 - p) % 2 = 1), f p := by
  rw [sumTo_eq_sum, Finset.sum_filter]
  exact Finset.sum_congr rfl fun p _ => by simp [bit_eq]

/-- The cell of the derived table (R105). -/
theorem entry_deriveTable {g : Config} {a : Matrix} {i j v : Nat} (hi : i < g.N) (hj : j < g.inBytes)
    (hv : v < 256) : entry (deriveTable g a) i j v = deriveCell a i j v := by
  have hv' : v < byteValues := hv
  simp [entry, deriveTable, hi, hj, hv', List.getD]

/-- A row that is absent reads as zeros. -/
theorem cell_of_none {a : Matrix} {i : Nat} (h : a[i]? = none) (c : Nat) : cell a i c = 0 := by
  simp [cell, List.getD, h]

end Sys2Proof.Machine
end

