-- ==== Sys2Proof/Tests/Slice0.lean ====
section
/-! SUPPORT. Tests against the spec's own examples (95_test_vectors.md), each about one step, and the witnesses that the
statements' hypotheses can be met. Every expected value is the spec's, cited by its table. -/

namespace Sys2Proof.Machine.Tests

/-! ## Well-formed terms -/

theorem test_illFormed_ctx :
    [Instr.mdInitRef 16, .mdInitLut 16, .mdUpdate 16 0, .mdFinal 16, .mdReset 16].all
      (fun i => i.wellFormed == false) = true := by decide

theorem test_illFormed_len : (Instr.mdUpdate 0 65536).wellFormed = false := by decide

theorem test_illFormed_idx : (Instr.csrRd 256).wellFormed = false := by decide

theorem test_wellFormed_boundary :
    [Instr.mtxGen, .lutDerive, .cmpRef, .cmpLut, .mdInitRef 15, .mdInitLut 15, .mdUpdate 15 65535, .mdFinal 15,
      .mdReset 15, .csrRd 255].all (fun i => i.wellFormed) = true := by decide

/-! ## Decoding: words written out bit by bit from R80 to R86 -/

theorem test_decode_formatZ :
    decode 0b00000000000000000000000000000001 = .command .mtxGen ∧
    decode 0b00000000000000000000000000000010 = .command .lutDerive ∧
    decode 0b00000000000000000000000000000011 = .command .cmpRef ∧
    decode 0b00000000000000000000000000000100 = .command .cmpLut := by decide

theorem test_decode_formatC :
    decode 0b00000000000000000000101000010000 = .command (.mdInitRef 10) ∧
    decode 0b00000000000000000000010100010001 = .command (.mdInitLut 5) ∧
    decode 0b00000000000000000000100000010011 = .command (.mdFinal 8) ∧
    decode 0b00000000000000000000000100010100 = .command (.mdReset 1) := by decide

theorem test_decode_formatU :
    decode 0b10000000000000010000001100010010 = .command (.mdUpdate 3 32769) := by decide

theorem test_decode_formatR :
    decode 0b00000000101000010000000000100000 = .command (.csrRd 161) := by decide

/-- D1: words with a bit of a must-be-zero field set, and an unlisted opcode. -/
theorem test_decode_rejects :
    decode 0x00000101 = .illegal (.nonzeroReservedField 0x01) ∧
    decode 0x00010010 = .illegal (.nonzeroReservedField 0x10) ∧
    decode 0x00001012 = .illegal (.nonzeroReservedField 0x12) ∧
    decode 0x01000020 = .illegal (.nonzeroReservedField 0x20) ∧
    decode 0x00000005 = .illegal (.reservedOpcode 0x05) := by decide

/-- R68: the first byte of the transport is `w[7:0]`. -/
theorem test_decodeBytes_order :
    decodeBytes [0x12, 0x03, 0x01, 0x80, 0xAA] = (.command (.mdUpdate 3 32769), [0xAA]) ∧
    decodeBytes [0x12, 0x03, 0x01] = (.illegal .truncated, []) := by decide

theorem test_decodeTableWord :
    decodeTableWord 32 0x80010312 = some (.mdUpdate 3 32769) ∧ decodeTableWord 32 0x00000080 = none := by decide

/-- R86's words, encoded. -/
theorem test_encode :
    encode .mtxGen = 0x00000001 ∧ encode (.mdInitRef 2) = 0x00000210 ∧ encode (.mdUpdate 0 3) = 0x00030012 ∧
    encode (.mdFinal 1) = 0x00000113 ∧ encode (.csrRd 0x15) = 0x00150020 := by decide

/-! ## States and matrices of 95_test_vectors.md, Part 2 -/

/-- The matrix `M_IDX`. -/
def mIdx : Matrix :=
  (List.range 2).map fun i => (List.range 256).map fun c => BitVec.ofNat 64 (i * 2 ^ 32 + c + 1)

/-- The matrix `M_ONES`. -/
def mOnes : Matrix := List.replicate 2 (List.replicate 256 0xFFFFFFFFFFFFFFFF)

/-- The entropy bytes of `M_CTR`: `e[k] = k mod 256`. -/
def ctrBytes : List Byte := (List.range 4096).map fun k => BitVec.ofNat 8 k

/-- The message `00 01 .. 1f`. -/
def rising : List Byte := (List.range 32).map fun k => BitVec.ofNat 8 k

/-- The message `m_L`: `61 62 63 ..`. -/
def letters (n : Nat) : List Byte := (List.range n).map fun k => BitVec.ofNat 8 (0x61 + k)

/-- A block with a matrix and its table, context 0 constructed over a compressor. -/
def booted (g : Config) (a : Matrix) (sel : Compressor := .ref) : State :=
  { State.resetWith g with
    matrixValid := true, matrix := a, lutValid := true, table := deriveTable g a
    ctxs := Ctx.zeroed g true sel :: List.replicate (g.NUM_CTX - 1) (Ctx.unbound g) }

/-- The state in which `exec` performs `i` with the payload `pay`. -/
def issued (s : State) (i : Instr) (pay : List Byte) : State := { s with cmd := { word := encode i, pay := pay } }

/-- The state in which the host's next move is `i` with the payload `pay`. -/
def pending (s : State) (i : Instr) (pay : List Byte) : State := { s with stream := [moveOf i pay] }

/-- A context that has absorbed `m_17` (D6, "Live state after absorbing"), over the compressor `sel`. -/
def after17 (sel : Compressor) : Ctx :=
  { bound := true, sel := sel, cv := [0x31FC, 0x41000031FC], buf := 0x71 :: List.replicate 15 0, nx := 1, len := 17 }

/-- The block of Part 2 with `M_IDX`, where context 0 has absorbed `m_17`. -/
def loaded (sel : Compressor) : State := { booted Config.tv mIdx with ctxs := [after17 sel, Ctx.unbound Config.tv] }

/-- What is seen of an answer: a view of the next state. -/
def seen {α : Type} (view : State → α) : Result → Option α
  | .next t => some (view t)
  | .fault _ => none
  | .refused _ => none

/-! ## One step of each instruction -/

/-- D2, `M_CTR`: cells across the fill. -/
theorem test_mtxGen_fills :
    seen (fun t => (t.matrixValid, cell t.matrix 0 1, cell t.matrix 1 0, cell t.matrix 1 255))
      (step { pending State.reset .mtxGen [] with entropy := [.ok ctrBytes] }) =
      some (true, 0x0F0E0D0C0B0A0908, 0x0706050403020100, 0xFFFEFDFCFBFAF9F8) := by decide +kernel

/-- D2: `err`, and a second MTX.GEN with a payload `7a` (fault 6 before 7). -/
theorem test_mtxGen_faults :
    seen (fun t => (t.matrixValid, csr t 0x01)) (exec .mtxGen { issued State.reset .mtxGen [] with entropy := [.err] }) =
      some (false, 0x0000000100000008) ∧
    seen (fun t => csr t 0x01) (exec .mtxGen (issued (booted Config.tv mIdx) .mtxGen [0x7a])) =
      some 0x0000000100000006 := by decide +kernel

/-- D3: cells of the derived table. -/
theorem test_lutDerive_cells :
    seen (fun t => (t.lutValid, entry t.table 0 0 0x01, entry t.table 1 3 0xC0, entry t.table 0 31 0x55))
      (exec .lutDerive (issued { State.reset with matrixValid := true, matrix := mIdx } .lutDerive [])) =
      some (true, 8, 0x200000033, 1012) := by decide +kernel

/-- D3: before MTX.GEN, fault 4. -/
theorem test_lutDerive_fault :
    seen (fun t => (t.lutValid, t.cause)) (exec .lutDerive (issued State.reset .lutDerive [])) = some (false, 4) := by
  decide

/-- D4: `M_IDX`, message `00 01 .. 1f`. -/
theorem test_cmpRef_rising :
    seen (fun t => t.result) (exec .cmpRef (issued (booted Config.tv mIdx) .cmpRef rising)) =
      some [0x60, 0x30, 0, 0, 0, 0, 0, 0, 0x60, 0x30, 0, 0, 0x50, 0, 0, 0] := by decide +kernel

/-- D4: CMP.REF before MTX.GEN. -/
theorem test_cmpRef_fault :
    seen (fun t => (t.result, csr t 0x01)) (exec .cmpRef (issued State.reset .cmpRef rising)) =
      some ([], 0x0000000300000004) := by decide

/-- D4: `M_IDX`, message `00 01 .. 1f`, through the table. -/
theorem test_cmpLut_rising :
    seen (fun t => t.result) (exec .cmpLut (issued (booted Config.tv mIdx) .cmpLut rising)) =
      some [0x60, 0x30, 0, 0, 0, 0, 0, 0, 0x60, 0x30, 0, 0, 0x50, 0, 0, 0] := by decide +kernel

/-- D4: `M_ONES`, 32 bytes `ff`: the sums wrap modulo 2^64. -/
theorem test_cmpLut_wraps :
    seen (fun t => t.result) (exec .cmpLut (issued (booted Config.tv mOnes) .cmpLut (List.replicate 32 0xFF))) =
      some [0, 0xFF, 0xFF, 0xFF, 0xFF, 0xFF, 0xFF, 0xFF, 0, 0xFF, 0xFF, 0xFF, 0xFF, 0xFF, 0xFF, 0xFF] := by
  decide +kernel

/-- D7: a context number outside `NUM_CTX`. -/
theorem test_mdInitRef_range :
    seen (fun t => csr t 0x01) (exec (.mdInitRef 2) (issued (booted Config.tv mIdx) (.mdInitRef 2) [])) =
      some 0x0000021000000002 := by decide

/-- R145: context 1 is constructed, context 0 stays. -/
theorem test_mdInitRef_binds :
    seen (fun t => t.ctxs) (exec (.mdInitRef 1) (issued (loaded .ref) (.mdInitRef 1) [])) =
      some [after17 .ref, { bound := true, sel := .ref, cv := [0, 0], buf := List.replicate 16 0, nx := 0, len := 0 }] := by
  decide +kernel

/-- D7: binding again: context 0 is fresh with SEL 1. -/
theorem test_mdInitLut_rebinds :
    seen (fun t => t.ctxs) (exec (.mdInitLut 0) (issued (loaded .ref) (.mdInitLut 0) [])) =
      some [{ bound := true, sel := .lut, cv := [0, 0], buf := List.replicate 16 0, nx := 0, len := 0 },
        Ctx.unbound Config.tv] := by decide +kernel

/-- D7: no table. -/
theorem test_mdInitLut_fault :
    seen (fun t => csr t 0x01) (exec (.mdInitLut 0) (issued State.reset (.mdInitLut 0) [])) =
      some 0x0000001100000005 := by decide

/-- D6: the live state after absorbing `m_17`. -/
theorem test_mdUpdate_absorbs :
    seen (fun t => (t.ctxs, csr t 0x10))
      (exec (.mdUpdate 0 17) (issued (booted Config.tv mIdx) (.mdUpdate 0 17) (letters 17))) =
      some ([after17 .ref, Ctx.unbound Config.tv], 0x0000000100000001) := by decide +kernel

/-- D7: a payload shorter than the command says. -/
theorem test_mdUpdate_fault :
    seen (fun t => (t.ctxs, csr t 0x01)) (exec (.mdUpdate 0 3) (issued (loaded .ref) (.mdUpdate 0 3) [0x61, 0x62])) =
      some ([after17 .ref, Ctx.unbound Config.tv], 0x0003001200000007) := by decide +kernel

/-- D6: the digest of `m_17`; the context stays. -/
theorem test_mdFinal_digest :
    seen (fun t => (t.result, t.ctxs)) (exec (.mdFinal 0) (issued (loaded .lut) (.mdFinal 0) [])) =
      some ([0xa2, 7, 0, 0, 0, 0, 0, 0, 0xa2, 7, 0, 0, 0x1b, 0, 0, 0], [after17 .lut, Ctx.unbound Config.tv]) := by
  decide +kernel

/-- D7: an unbound context. -/
theorem test_mdFinal_fault :
    seen (fun t => (t.result, csr t 0x01)) (exec (.mdFinal 1) (issued (loaded .ref) (.mdFinal 1) [])) =
      some ([], 0x0000011300000003) := by decide +kernel

/-- D7: MD.RESET clears the count and the value and keeps the compressor. -/
theorem test_mdReset_clears :
    seen (fun t => t.ctxs) (exec (.mdReset 0) (issued (loaded .lut) (.mdReset 0) [])) =
      some [{ bound := true, sel := .lut, cv := [0, 0], buf := List.replicate 16 0, nx := 0, len := 0 },
        Ctx.unbound Config.tv] := by decide +kernel

/-- D8: registers of the configuration, and STATUS with both valid bits. -/
theorem test_csrRd_values :
    ([0x00, 0x02, 0x03, 0x04, 0x05, 0x06, 0x07, 0x08, 0x15, 0x09].map fun k =>
      seen (fun t => (t.result.headD 1, t.result.tail)) (exec (.csrRd k) (issued (booted Config.tv mIdx) (.csrRd k) []))) =
    ([0x03, 0x02, 0x02, 0x20, 0x02, 0x10, 0x10, 0x02, 0x00, 0x00].map fun b => some (b, List.replicate 7 0)) := by
  decide +kernel

/-- D8: a payload: fault 7 when not faulted, discarded when faulted. -/
theorem test_csrRd_payload :
    seen (fun t => (t.result, t.cause)) (exec (.csrRd 0) (issued State.reset (.csrRd 0) [0x78])) = some ([], 7) ∧
    seen (fun t => (t.result, t.cause))
      (exec (.csrRd 0) (issued { State.reset with faulted := true, cause := 5 } (.csrRd 0) [0x78])) =
      some ([], 5) := by decide

/-- P5 (b): an illegal word, and what FAULT_INFO shows. -/
theorem test_illegalWord :
    seen (fun t => csr t 0x01) (step { State.reset with stream := [.command { word := 0x00001012, pay := [] }] }) =
      some 0x0000101200000001 := by decide +kernel

/-- Part 2: the sizes of the test configuration. -/
theorem test_sizes :
    Config.tv.M = 256 ∧ Config.tv.inBytes = 32 ∧ Config.tv.outWords = 2 ∧ Config.tv.S = 16 ∧ Config.tv.B = 16 ∧
    Config.tv.P = 8 ∧ Config.tv.entBytes = 4096 ∧ Config.tv.lutWords = 16384 := by decide

/-- D5: the pad lengths at `B = 16`. -/
theorem test_padLen :
    ([0, 1, 7, 8, 9, 15].map (padLen 16)) = [8, 7, 1, 16, 15, 9] := by decide

/-- S3: the padding of `abc`. -/
theorem test_padding :
    padBytes 16 3 ++ lengthField 3 = [0x80, 0, 0, 0, 0, 0x18, 0, 0, 0, 0, 0, 0, 0] := by decide

/-- R92: lines of assembler text, and what is no line of it. -/
theorem test_assemble :
    assemble "MD.UPDATE 0, 3 pay=616263" = some { word := 0x00030012, pay := [0x61, 0x62, 0x63] } ∧
    assemble "csr.rd CTX_STATUS(1)" = some { word := 0x00110020, pay := [] } ∧
    assemble "MD.INIT.REF 0x10" = none := by decide +kernel

/-- R93: a message of 17 bytes is one piece. -/
theorem test_mdHash :
    mdHashRef 1 (letters 17) =
      [moveOf (.mdInitRef 1) [], moveOf (.mdUpdate 1 17) (letters 17), moveOf (.mdFinal 1) []] := by decide +kernel

/-- A word placed for fetching is the next command performed, from reset. -/
theorem test_withFetchWord :
    seen (fun t => (t.matrixValid, t.stream, t.entropy)) (step (State.reset.withFetchWord 32 0x00000001)) =
      some (true, [], []) ∧
    seen (fun t => csr t 0x01) (step (State.reset.withFetchWord 32 0x00000003)) = some 0x0000000300000004 := by
  decide +kernel

/-! ## Witnesses: for each statement with hypotheses, operands that meet all of them -/

theorem mIdx_shaped : matrixShaped Config.tv mIdx := by
  refine ⟨by simp [mIdx, Config.tv], fun row h => ?_⟩
  simp only [mIdx, List.mem_map] at h
  obtain ⟨i, _, rfl⟩ := h
  simp [Config.tv, Config.M]

/-- A booted block of any admitted configuration meets the invariant. -/
theorem booted_inv {g : Config} {a : Matrix} {sel : Compressor} (hg : g.Admitted) (hB : 0 < g.B) (ha : matrixShaped g a) :
    (booted g a sel).Inv where
  admitted := hg
  matrixOk := ha
  tableOk := by simp [booted, deriveTable, tableShaped]
  ctxCount := by have := hg.2.2.2.1; simp [booted]; omega
  ctxOk := by
    intro x hx
    rcases List.mem_cons.1 hx with rfl | hx
    · simpa [booted, ctxShaped] using hB
    · rw [(List.mem_replicate.1 hx).2]; simpa [booted, ctxShaped, Ctx.unbound] using hB
  ctxZero := by
    intro x hx h
    rcases List.mem_cons.1 hx with rfl | hx
    · cases h
    · exact (List.mem_replicate.1 hx).2
  ctxReady := fun _ _ _ => ⟨fun _ => rfl, fun _ => rfl⟩
  tableDerived := fun _ => ⟨rfl, rfl⟩
  notFaulted := fun _ => ⟨rfl, rfl⟩
  faultedCause := by simp [booted]

/-- The block the witnesses start from. -/
def ready : State := booted Config.tv mIdx

theorem ready_inv : ready.Inv := booted_inv (by decide) (by decide) mIdx_shaped

/-- The invariant does not speak of the ports. -/
theorem inv_pending {s : State} (h : s.Inv) (m : List HostMove) (c : Command) (e : List EntropyAnswer) :
    ({ s with stream := m, cmd := c, entropy := e } : State).Inv :=
  ⟨h.1, h.2, h.3, h.4, h.5, h.6, h.7, h.8, h.9, h.10⟩

theorem ready_pending_inv (i : Instr) (pay : List Byte) : (pending ready i pay).Inv :=
  inv_pending ready_inv [moveOf i pay] ready.cmd ready.entropy

theorem ready_issued_inv (i : Instr) (pay : List Byte) : (issued ready i pay).Inv :=
  inv_pending ready_inv ready.stream ⟨encode i, pay⟩ ready.entropy

theorem ready_residue : carriesResidue ready := by
  unfold carriesResidue
  decide +kernel

theorem ready_steps : (seen (fun t => (t.matrixValid, t.lutValid)) (step (pending ready (.mdReset 0) []))) =
    some (true, true) := by decide +kernel

/-- What `seen` shows is a next state. -/
theorem next_of_seen {α : Type} {view : State → α} {r : Result} {v : α} (h : seen view r = some v) :
    ∃ t, r = .next t ∧ view t = v := by
  cases r with
  | next t => exact ⟨t, rfl, Option.some.inj h⟩
  | fault _ => cases h
  | refused _ => cases h

/-- An answer seen not to be faulted is a next state. -/
theorem completes {r : Result} (h : seen (fun t => t.faulted) r = some false) :
    ∃ t, r = .next t ∧ t.faulted = false := next_of_seen h

theorem witness_DecodeEncodeAgree : (Instr.mdUpdate 15 65535).wellFormed = true := by decide

theorem witness_EncodeDecodeAgree : decode 0xFFFF0F12 = .command (.mdUpdate 15 65535) := by decide

theorem witness_DecodeFollowsOpcodeMap :
    (decode 0xFFFF0F12 = .command (.mdUpdate 15 65535) ∧ ctxNamed (.mdUpdate 15 65535) = some 15) ∧
    decode 0x00FF0020 = .command (.csrRd 255) ∧ decode 0x00000021 = .illegal (.reservedOpcode 0x21) := by decide

/-- The smallest sizes, and the most contexts. -/
theorem witness_DerivedSizes :
    Config.Admitted { N := 1, CF := 3, NUM_CTX := 1 } ∧ Config.Admitted { N := 2, CF := 2, NUM_CTX := 16 } := by decide

theorem witness_ResetMeetsInvariant : Config.Admitted { N := 1, CF := 3, NUM_CTX := 16 } := by decide

theorem witness_DigestsAgree : Config.Admitted { N := 1, CF := 3, NUM_CTX := 1 } := by decide

theorem witness_ConfigurationsRefused :
    (∃ s : State, ¬ (1 ≤ s.cfg.N ∧ 2 ≤ s.cfg.CF ∧ 2 ≤ s.cfg.N * (s.cfg.CF - 1))) ∧
    ∃ g : Config, 1 ≤ g.N ∧ 2 ≤ g.CF ∧ 2 ≤ g.N * (g.CF - 1) :=
  ⟨⟨State.resetWith { N := 1, CF := 2, NUM_CTX := 1 }, by decide⟩, ⟨{ N := 1, CF := 3, NUM_CTX := 1 }, by decide⟩⟩

theorem witness_StepRunsDecodedCommand :
    ∃ (s : State) (c : Command) (rest : List HostMove) (i : Instr),
      s.cfg.Admitted ∧ s.stream = .command c :: rest ∧ decode c.word = .command i :=
  ⟨pending State.reset .mtxGen [], { word := encode .mtxGen, pay := [] }, [], .mtxGen, by decide⟩

theorem witness_IllegalWordStep (b : Bool) :
    ∃ (s : State) (c : Command) (rest : List HostMove) (why : IllegalReason),
      s.cfg.Admitted ∧ s.stream = .command c :: rest ∧ decode c.word = .illegal why ∧ s.faulted = b :=
  ⟨{ State.reset with stream := [.command { word := 0, pay := [] }], faulted := b }, { word := 0, pay := [] }, [],
    .reservedOpcode 0, show Config.tv.Admitted by decide, rfl, by decide, rfl⟩

theorem witness_IdleStep : State.reset.cfg.Admitted ∧ State.reset.stream = [] := by decide

theorem witness_HardwareResetStep :
    ∃ (s : State) (rest : List HostMove), s.cfg.Admitted ∧ s.stream = .rst :: rest ∧ s.faulted = true :=
  ⟨{ loaded .ref with stream := [.rst], faulted := true }, [], by decide, rfl, rfl⟩

theorem witness_ResetValues : Ctx.unbound Config.tv ∈ (State.resetWith Config.tv).ctxs ∧ 0x09 ≤ 0x09 := by decide

theorem witness_StepKeepsInvariant : ∃ s t : State, s.Inv ∧ step s = .next t := by
  obtain ⟨t, h, _⟩ := next_of_seen ready_steps
  exact ⟨_, t, ready_pending_inv (.mdReset 0) [], h⟩

theorem witness_MatrixAndTableImmutable :
    ∃ s t : State, s.Inv ∧ resetNext s = false ∧ step s = .next t ∧ s.matrixValid = true ∧ s.lutValid = true := by
  obtain ⟨t, h, _⟩ := next_of_seen ready_steps
  exact ⟨_, t, ready_pending_inv (.mdReset 0) [], rfl, h, rfl, rfl⟩

/-- A block whose `B` does not divide 2^64. -/
def oddBlock : State := booted { N := 1, CF := 4, NUM_CTX := 1 } (List.replicate 1 (List.replicate 256 0))

theorem oddBlock_inv : oddBlock.Inv :=
  booted_inv (by decide) (by decide) ⟨rfl, fun row h => by
    rw [(List.mem_replicate.1 h).2]; exact List.length_replicate⟩

theorem witness_StepKeepsResidue :
    (∃ s t : State, s.Inv ∧ carriesResidue s ∧ step s = .next t ∧ s.cfg.B ∣ 2 ^ 64) ∧
    ∃ s t : State, s.Inv ∧ carriesResidue s ∧ step s = .next t ∧ ¬ s.cfg.B ∣ 2 ^ 64 ∧
      (∀ x ∈ s.ctxs, ∀ c i, nextCommand s = some (i, c) → x.len.toNat + c.pay.length < 2 ^ 64) ∧
      (nextCommand s).isSome = true := by
  refine ⟨?_, ?_⟩
  · obtain ⟨t, h, _⟩ := next_of_seen ready_steps
    exact ⟨_, t, ready_pending_inv (.mdReset 0) [], ready_residue, h, by decide⟩
  · have hs : seen (fun t => t.faulted) (step (pending oddBlock (.mdUpdate 0 1) [0x61])) = some false := by
      decide +kernel
    obtain ⟨t, h, _⟩ := next_of_seen hs
    refine ⟨_, t, inv_pending oddBlock_inv [moveOf (.mdUpdate 0 1) [0x61]] oddBlock.cmd oddBlock.entropy, ?_, h,
      by decide, ?_, by decide⟩
    · unfold carriesResidue; decide +kernel
    · intro x hx c i hc
      have hx' : x ∈ [Ctx.zeroed { N := 1, CF := 4, NUM_CTX := 1 } true .ref] := hx
      have hn : some (Instr.mdUpdate 0 1, { word := encode (.mdUpdate 0 1), pay := [0x61] }) = some (i, c) := hc
      rw [List.mem_singleton.1 hx']
      cases hn
      decide

theorem witness_ValidBitsSetOnlyByTheirCommands :
    (∃ s t : State, step s = .next t ∧ s.matrixValid = false ∧ t.matrixValid = true) ∧
    ∃ s t : State, step s = .next t ∧ s.lutValid = false ∧ t.lutValid = true := by
  have h1 : seen (fun t => t.matrixValid) (step (State.reset.withFetchWord 32 0x00000001)) = some true := by
    decide +kernel
  have h2 : seen (fun t => t.lutValid)
      (step (pending { State.reset with matrixValid := true } .lutDerive [])) = some true := by decide +kernel
  obtain ⟨t, ht, hv⟩ := next_of_seen h1
  obtain ⟨u, hu, hw⟩ := next_of_seen h2
  exact ⟨⟨_, t, ht, rfl, hv⟩, _, u, hu, rfl, hw⟩

theorem witness_MtxGenCompletes :
    ∃ (s : State) (e : List Byte) (rest : List EntropyAnswer),
      s.faulted = false ∧ s.matrixValid = false ∧ s.cmd.pay = [] ∧ s.entropy = .ok e :: rest ∧
      e.length = 8 * s.cfg.N * s.cfg.M ∧ 1 < s.cfg.N ∧ 255 < s.cfg.M :=
  ⟨{ issued State.reset .mtxGen [] with entropy := [.ok ctrBytes] }, ctrBytes, [], rfl, rfl, rfl, rfl,
    by simp [ctrBytes]; decide, by decide, by decide⟩

theorem witness_MtxGenEntropyFailure :
    ∃ (s : State) (rest : List EntropyAnswer),
      s.faulted = false ∧ s.matrixValid = false ∧ s.cmd.pay = [] ∧ s.entropy = .err :: rest :=
  ⟨{ issued State.reset .mtxGen [] with entropy := [.err] }, [], rfl, rfl, rfl, rfl⟩

theorem witness_MtxGenUnansweredIsStuck :
    ∃ s : State, s.faulted = false ∧ s.matrixValid = false ∧ s.cmd.pay = [] ∧ s.entropy = [] :=
  ⟨issued State.reset .mtxGen [], rfl, rfl, rfl, rfl⟩

theorem witness_LutDeriveCompletes : ∃ s : State, s.faulted = false ∧ s.matrixValid = true ∧ s.cmd.pay = [] :=
  ⟨issued ready .lutDerive [], rfl, rfl, rfl⟩

theorem witness_LutDeriveAgainChangesNothing :
    ∃ s : State, s.Inv ∧ s.faulted = false ∧ s.lutValid = true ∧ s.cmd.pay = [] :=
  ⟨issued ready .lutDerive [], ready_issued_inv _ _, rfl, rfl, rfl⟩

theorem witness_DerivedCells : 1 < Config.tv.N ∧ 31 < Config.tv.M / 8 ∧ 255 < 256 := by decide

/-- The additive law has a witness at both halves of a byte. -/
theorem witness_TableLaws : 1 < Config.tv.N ∧ 31 < Config.tv.M / 8 ∧ 0xF0 < 256 ∧ 0x0F < 256 ∧ 0xF0 &&& 0x0F = 0 := by
  decide

theorem witness_RefCompressorSums : 1 < Config.tv.N := by decide

theorem witness_LutCompressorSums : 1 < Config.tv.N := by decide

theorem witness_CompressionLinear :
    (∃ m₁ m₂ : List Byte, m₁.length = Config.tv.inBytes ∧ m₂.length = Config.tv.inBytes ∧
      ∀ j, m₁.getD j 0 &&& m₂.getD j 0 = 0) ∧ mIdx[0]? = (mIdx.set 1 [])[0]? := by
  refine ⟨⟨List.replicate 32 0xF0, List.replicate 32 0x0F, by decide, by decide, fun j => ?_⟩, by decide +kernel⟩
  by_cases h : j < 32
  · revert j; decide
  · simp [List.getD, h]

theorem witness_CmpCommandsComplete :
    ∃ s : State, s.faulted = false ∧ s.cmd.pay.length = s.cfg.inBytes ∧ s.matrixValid = true ∧ s.lutValid = true :=
  ⟨issued ready .cmpRef rising, rfl, by simp [issued, rising]; decide, rfl, rfl⟩

theorem witness_CmpCommandsAgree :
    ∃ s : State, s.Inv ∧ s.faulted = false ∧ s.lutValid = true ∧ s.cmd.pay.length = s.cfg.inBytes :=
  ⟨issued ready .cmpLut rising, ready_issued_inv _ _, rfl, rfl, by simp [issued, rising]; decide⟩

theorem witness_WordLayout : ([1, 2, 3, 4, 5, 6, 7, 8] : List Byte).length = 8 ∧ 1 < ([0, 1] : List Word).length := by
  decide

theorem witness_MdInitCompletes (sel : Compressor) :
    ∃ (s : State) (c : Nat) (x : Ctx), s.faulted = false ∧ c < s.cfg.NUM_CTX ∧ s.cmd.pay = [] ∧
      x.bound = true ∧ x.cv = List.replicate s.cfg.N 0 ∧ x.buf = List.replicate s.cfg.B 0 ∧ x.nx = 0 ∧ x.len = 0 ∧
      x.sel = sel ∧ s.matrixValid = true ∧ s.lutValid = true :=
  ⟨ready, 1, Ctx.zeroed Config.tv true sel, rfl, by decide, rfl, rfl, rfl, rfl, rfl, rfl, rfl, rfl, rfl⟩

/-- The hypotheses of both statements about a context that carries `LEN mod B` bytes. -/
theorem loaded_meets (pay : List Byte) :
    ∃ (s : State) (c : Nat) (x : Ctx),
      s.cfg.Admitted ∧ s.faulted = false ∧ c < s.cfg.NUM_CTX ∧ s.ctxs[c]? = some x ∧ x.bound = true ∧
      ctxShaped s.cfg x ∧ x.nx = x.len.toNat % s.cfg.B ∧ s.cmd.pay = pay :=
  ⟨issued (loaded .ref) (.mdUpdate 0 pay.length) pay, 0, after17 .ref,
    show Config.tv.Admitted by decide, rfl, show 0 < Config.tv.NUM_CTX by decide, rfl, rfl,
    show ctxShaped Config.tv (after17 .ref) by decide +kernel,
    show (after17 .ref).nx = (after17 .ref).len.toNat % Config.tv.B by decide +kernel, rfl⟩

theorem witness_MdUpdateCompletes :
    ∃ (s : State) (c n : Nat) (x : Ctx),
      s.cfg.Admitted ∧ s.faulted = false ∧ c < s.cfg.NUM_CTX ∧ s.ctxs[c]? = some x ∧ x.bound = true ∧
      ctxShaped s.cfg x ∧ s.cmd.pay.length = n := by
  obtain ⟨s, c, x, h1, h2, h3, h4, h5, h6, _, _⟩ := loaded_meets (letters 17)
  exact ⟨s, c, _, x, h1, h2, h3, h4, h5, h6, rfl⟩

theorem witness_MdFinalCompletes :
    ∃ (s : State) (c : Nat) (x : Ctx),
      s.cfg.Admitted ∧ s.faulted = false ∧ c < s.cfg.NUM_CTX ∧ s.ctxs[c]? = some x ∧ x.bound = true ∧
      ctxShaped s.cfg x ∧ x.nx = x.len.toNat % s.cfg.B ∧ s.cmd.pay = [] := loaded_meets []

theorem witness_Incrementality : 0 < 16 ∧ (after17 .ref).nx < 16 ∧ (after17 .ref).buf.length = 16 := by decide +kernel

theorem witness_BufferTailUnused :
    0 < 16 ∧ (after17 .ref).nx < 16 ∧ (after17 .ref).buf.length = 16 ∧
    sameCarried (after17 .ref) { after17 .ref with buf := 0x71 :: List.replicate 15 0xFF } := by decide +kernel

/-- The lengths where PaddingFits' two cases meet. -/
theorem witness_PaddingFits : 16 ≤ 16 ∧ 7 % 16 < 16 - 8 ∧ 16 - 8 ≤ 8 % 16 ∧ 1 ≤ 9 ∧ (7 + 1) % 16 = 16 - 8 := by decide

theorem witness_FinalizeBlocks :
    (16 ≤ 16 ∧ (after17 .ref).buf.length = 16 ∧ (after17 .ref).nx = (after17 .ref).len.toNat % 16 ∧
      (after17 .ref).nx < 16 - 8) ∧
    ∃ x : Ctx, x.buf.length = 16 ∧ x.nx = x.len.toNat % 16 ∧ 16 - 8 ≤ x.nx :=
  ⟨by decide, { after17 .ref with nx := 8, len := 24 }, by decide⟩

/-- A context whose LEN has wrapped, in a block whose `B` does not divide 2^64. -/
theorem witness_MdFinalPadAssertion :
    ∃ (s : State) (c : Nat) (x : Ctx),
      s.cfg.Admitted ∧ s.faulted = false ∧ c < s.cfg.NUM_CTX ∧ s.ctxs[c]? = some x ∧ x.bound = true ∧
      ctxShaped s.cfg x ∧ x.nx ≠ x.len.toNat % s.cfg.B ∧ s.cmd.pay = [] :=
  ⟨{ oddBlock with ctxs := [{ bound := true, sel := .ref, cv := [0], buf := List.replicate 24 0, nx := 16, len := 0 }] },
    0, _, by decide, rfl, by decide, rfl, rfl, by decide, by decide, rfl⟩

theorem witness_MdResetCompletes :
    ∃ (s : State) (c : Nat) (x : Ctx), s.faulted = false ∧ c < s.cfg.NUM_CTX ∧ s.ctxs[c]? = some x ∧
      x.bound = true ∧ s.cmd.pay = [] :=
  ⟨issued (loaded .lut) (.mdReset 0) [], 0, after17 .lut, rfl, by decide, rfl, rfl, rfl⟩

theorem witness_ResetEquivalence (sel : Compressor) :
    ∃ (s : State) (c : Nat) (x : Ctx), s.Inv ∧ s.faulted = false ∧ s.ctxs[c]? = some x ∧ x.bound = true ∧
      s.cmd.pay = [] ∧ x.sel = sel :=
  ⟨booted Config.tv mIdx sel, 0, Ctx.zeroed Config.tv true sel, booted_inv (by decide) (by decide) mIdx_shaped,
    rfl, rfl, rfl, rfl, rfl⟩

theorem witness_DigestIsChain : Config.tv.Admitted ∧ (letters 17).length < 2 ^ 64 := by decide

/-- One witness for each pseudo-command of OneShotHash. -/
theorem witness_OneShotHash :
    (∃ (s : State) (c : Nat) (m : List Byte) (rest : List HostMove),
      s.Inv ∧ s.faulted = false ∧ c < s.cfg.NUM_CTX ∧ m.length < 2 ^ 64 ∧ s.matrixValid = true ∧
      s.stream = mdHashRef c m ++ rest) ∧
    ∃ (s : State) (c : Nat) (m : List Byte) (rest : List HostMove),
      s.Inv ∧ s.faulted = false ∧ c < s.cfg.NUM_CTX ∧ m.length < 2 ^ 64 ∧ s.lutValid = true ∧
      s.stream = mdHashLut c m ++ rest :=
  ⟨⟨{ ready with stream := mdHashRef 1 (letters 17) }, 1, letters 17, [],
    inv_pending ready_inv (mdHashRef 1 (letters 17)) ready.cmd ready.entropy, rfl, by decide, by decide, rfl,
    (List.append_nil _).symm⟩,
   ⟨{ ready with stream := mdHashLut 1 (letters 17) }, 1, letters 17, [],
    inv_pending ready_inv (mdHashLut 1 (letters 17)) ready.cmd ready.entropy, rfl, by decide, by decide, rfl,
    (List.append_nil _).symm⟩⟩

/-- CSR.RD with an empty payload, faulted or not; the reserved indexes of ConstantRegisters at their ends. -/
theorem witness_CsrRdCompletes (b : Bool) :
    (∃ s : State, s.cmd.pay = [] ∧ s.faulted = b) ∧ (∃ s : State, s.cmd.pay ≠ [] ∧ s.faulted = b) ∧ (0x0F < 256 ∧ 8 < 0x0F ∧ 0x0F < 0x10) ∧ 0xFF < 256 ∧ 0x30 ≤ 0xFF :=
  ⟨⟨{ State.reset with faulted := b }, rfl, rfl⟩,
    ⟨{ issued State.reset (.csrRd 0) [0x78] with faulted := b }, nofun, rfl⟩, by decide⟩

theorem witness_StatusBits : 0 < 64 ∧ 63 < 64 := by decide

theorem witness_FaultInfoFields : ready.Inv ∧ ready.faulted = false := ⟨ready_inv, rfl⟩

theorem witness_ContextRegisters :
    (1 < 16 ∧ 1 < ready.cfg.NUM_CTX ∧ ready.ctxs[1]? = some (Ctx.unbound Config.tv) ∧
      (Ctx.unbound Config.tv).nx < 2 ^ 32) ∧ 15 < 16 ∧ ready.cfg.NUM_CTX ≤ 15 :=
  ⟨⟨by decide, by decide, rfl, by decide⟩, by decide⟩

theorem witness_ConstantRegisters :
    (∃ s t : State, step s = .next t) ∧ (∃ s : State, s.cmd.pay = []) ∧
    ∀ r ∈ cfgRegisters Config.tv, r.2 < 2 ^ 64 :=
  ⟨⟨State.reset, State.reset, rfl⟩, ⟨State.reset, rfl⟩, by decide⟩

/-- Each code of LowestCauseIsRaised is the lowest one somewhere. -/
theorem witness_LowestCauseIsRaised (k : Nat) (h2 : 2 ≤ k) (h7 : k ≤ 7) :
    ∃ (s : State) (i : Instr), s.faulted = false ∧ causeHolds s i k ∧ ∀ j < k, ¬ causeHolds s i j := by
  have hcode : k = 2 ∨ k = 3 ∨ k = 4 ∨ k = 5 ∨ k = 6 ∨ k = 7 := by omega
  rcases hcode with rfl | rfl | rfl | rfl | rfl | rfl
  · refine ⟨State.reset, .mdFinal 2, rfl, .inl ⟨rfl, 2, rfl, by decide⟩, fun j hj => ?_⟩
    simp [causeHolds]; omega
  · refine ⟨State.reset, .mdFinal 1, rfl, .inr (.inl ⟨rfl, rfl, 1, rfl, fun x hx => ?_⟩), fun j hj => ?_⟩
    · have : some (Ctx.unbound Config.tv) = some x := hx
      cases this; rfl
    · have : State.reset.cfg.NUM_CTX = 2 := rfl
      simp [causeHolds, ctxNamed, this]; omega
  · refine ⟨State.reset, .cmpRef, rfl, .inr (.inr (.inl ⟨rfl, rfl, rfl⟩)), fun j hj => ?_⟩
    simp [causeHolds, ctxNamed]; omega
  · refine ⟨State.reset, .cmpLut, rfl, .inr (.inr (.inr (.inl ⟨rfl, rfl, rfl⟩))), fun j hj => ?_⟩
    simp [causeHolds, ctxNamed, needsMatrix]; omega
  · refine ⟨ready, .mtxGen, rfl, .inr (.inr (.inr (.inr (.inl ⟨rfl, rfl, rfl⟩)))), fun j hj => ?_⟩
    simp [causeHolds, ctxNamed, needsMatrix, needsLut]; omega
  · refine ⟨issued State.reset .mtxGen [0x7a], .mtxGen, rfl, .inr (.inr (.inr (.inr (.inr ⟨rfl, by decide⟩)))),
      fun j hj => ?_⟩
    have : (issued State.reset .mtxGen [0x7a]).matrixValid = false := rfl
    simp only [causeHolds, ctxNamed, needsBound, needsMatrix, needsLut, this]
    simp; omega

theorem witness_FaultsArePrecise :
    ∃ (s t : State) (i : Instr), s.faulted = false ∧ exec i s = .next t ∧ t.faulted = true :=
  ⟨issued State.reset .cmpRef [], raiseFault (issued State.reset .cmpRef []) .matrixNotReady, .cmpRef, rfl, rfl, rfl⟩

theorem witness_FaultedBlockDiscards :
    ∃ (s : State) (c : Command) (rest : List HostMove),
      s.cfg.Admitted ∧ s.stream = .command c :: rest ∧ s.faulted = true ∧
      ¬ ∃ k, decode c.word = .command (.csrRd k) ∧ c.pay = [] := by
  refine ⟨{ pending State.reset .mtxGen [] with faulted := true }, { word := encode .mtxGen, pay := [] }, [],
    by decide, rfl, rfl, ?_⟩
  have h : decode (encode .mtxGen) = .command .mtxGen := by decide
  rintro ⟨k, hk, _⟩
  rw [h] at hk
  cases hk

theorem witness_FaultStaysUntilReset :
    (∃ s t : State, s.faulted = true ∧ resetNext s = false ∧ step s = .next t) ∧
    ∃ s t : State, s.faulted = false ∧ resetNext s = false ∧ step s = .next t ∧ t.faulted = false :=
  ⟨⟨{ State.reset with faulted := true }, _, rfl, rfl, rfl⟩, State.reset, _, rfl, rfl, rfl, rfl⟩

theorem witness_EmittingCommandsFrame :
    (∃ t, exec .cmpRef (issued ready .cmpRef (List.replicate 32 0)) = .next t ∧ t.faulted = false) ∧
    (∃ t, exec .cmpLut (issued ready .cmpLut (List.replicate 32 0)) = .next t ∧ t.faulted = false) ∧
    (∃ t, exec (.mdFinal 0) (issued (loaded .ref) (.mdFinal 0) []) = .next t ∧ t.faulted = false) ∧
    ∃ t, exec (.csrRd 0) (issued ready (.csrRd 0) []) = .next t ∧ t.faulted = false :=
  ⟨completes (by decide +kernel), completes (by decide +kernel), completes (by decide +kernel),
    completes (by decide +kernel)⟩

theorem witness_MatrixCommandsFrame :
    (∃ s t : State, exec .mtxGen s = .next t ∧ t.faulted = false) ∧
    ∃ s t : State, exec .lutDerive s = .next t ∧ t.faulted = false :=
  ⟨⟨{ issued State.reset .mtxGen [] with entropy := [.ok (List.replicate 4096 0)] }, completes (by decide +kernel)⟩,
    issued ready .lutDerive [], completes (by decide +kernel)⟩

/-- One witness for each command of ContextCommandsFrame. -/
theorem witness_ContextCommandsFrame :
    (∃ t, exec (.mdInitRef 1) (issued ready (.mdInitRef 1) []) = .next t ∧ t.faulted = false) ∧
    (∃ t, exec (.mdInitLut 1) (issued ready (.mdInitLut 1) []) = .next t ∧ t.faulted = false) ∧
    (∃ t, exec (.mdUpdate 0 1) (issued ready (.mdUpdate 0 1) [0]) = .next t ∧ t.faulted = false) ∧
    ∃ t, exec (.mdReset 0) (issued ready (.mdReset 0) []) = .next t ∧ t.faulted = false :=
  ⟨completes (by decide +kernel), completes (by decide +kernel), completes (by decide +kernel),
    completes (by decide +kernel)⟩

theorem witness_EntropyOnlyForMtxGen : ∃ s t : State, step s = .next t ∧ t.entropy ≠ s.entropy := by
  have h : seen (fun t => t.entropy) (step { pending State.reset .mtxGen [] with entropy := [.err] }) = some [] := by
    decide +kernel
  obtain ⟨t, ht, he⟩ := next_of_seen h
  exact ⟨_, t, ht, by rw [he]; decide⟩

/-- A witness for each clause of OnlyListedCommandsEmit: 16 bytes, 8 bytes, none; and a discarded CMP.REF. -/
theorem witness_OnlyListedCommandsEmit :
    (issued ready .cmpRef (List.replicate 32 0)).Inv ∧ (issued ready (.csrRd 8) []).Inv ∧
    (issued ready (.mdReset 0) []).Inv ∧
    [exec .cmpRef (issued ready .cmpRef (List.replicate 32 0)), exec (.csrRd 8) (issued ready (.csrRd 8) []),
      exec (.mdReset 0) (issued ready (.mdReset 0) []),
      exec .cmpRef { issued ready .cmpRef (List.replicate 32 0) with faulted := true }].map
        (seen fun t => t.result.length) = [some 16, some 8, some 0, some 0] :=
  ⟨ready_issued_inv _ _, ready_issued_inv _ _, ready_issued_inv _ _, by decide +kernel⟩

theorem witness_ContextsCommute :
    ∃ (s u t : State) (a b : Command) (i j : Instr) (c d : Nat) (rest : List HostMove),
      decode a.word = .command i ∧ decode b.word = .command j ∧
      ctxNamed i = some c ∧ ctxNamed j = some d ∧ c ≠ d ∧
      step { s with stream := .command a :: .command b :: rest } = .next u ∧ step u = .next t ∧ t.faulted = false := by
  have h1 : seen (fun u => seen (fun t => t.faulted) (step u)) (step { ready with
      stream := [moveOf (.mdReset 0) [], moveOf (.mdInitLut 1) []] }) = some (some false) := by decide +kernel
  obtain ⟨u, hu, hv⟩ := next_of_seen h1
  obtain ⟨t, ht, hf⟩ := next_of_seen hv
  exact ⟨ready, u, t, ⟨encode (.mdReset 0), []⟩, ⟨encode (.mdInitLut 1), []⟩, .mdReset 0, .mdInitLut 1, 0, 1, [],
    by decide, by decide, rfl, rfl, by decide, hu, ht, hf⟩

/-- Two states with different unread cells, and a step of them. -/
theorem witness_UnreadCellsInvisible :
    ∃ s s' t : State, s.Inv ∧ sameButUnread s s' ∧ s ≠ s' ∧ step s = .next t := by
  refine ⟨{ ready with lutValid := false, stream := [moveOf (.csrRd 0) []] },
    { ready with lutValid := false, table := [], stream := [moveOf (.csrRd 0) []] }, ?_⟩
  have h : seen (fun t => t.faulted) (step { ready with lutValid := false, stream := [moveOf (.csrRd 0) []] }) =
      some false := by decide +kernel
  obtain ⟨t, ht, _⟩ := next_of_seen h
  refine ⟨t, ⟨ready_inv.1, ready_inv.2, ready_inv.3, ready_inv.4, ready_inv.5, ready_inv.6, ?_, nofun,
    ready_inv.9, ready_inv.10⟩, ⟨fun _ => rfl, nofun, rfl⟩, fun he => ?_, ht⟩
  · intro x hx _
    rcases List.mem_cons.1 hx with rfl | hx
    · exact ⟨fun _ => rfl, nofun⟩
    · rw [(List.mem_replicate.1 hx).2]; exact ⟨fun _ => rfl, nofun⟩
  · have : (deriveTable Config.tv mIdx).length = 0 := congrArg (fun s => s.table.length) he
    simp [deriveTable, Config.tv] at this

theorem witness_StepAlwaysAnswers :
    ∃ s : State, s.cfg.Admitted ∧ s.entropy ≠ [] ∧ entropyAnswersFit s :=
  ⟨{ State.reset with entropy := [.err] }, by decide, nofun, fun a ha e he => by
    have ha' : a ∈ [EntropyAnswer.err] := ha
    rw [List.mem_singleton.1 ha'] at he
    cases he⟩

end Sys2Proof.Machine.Tests
end

/-! # Proofs of 00_scope.md: the sizes, the step and the byte layouts

The sizes are linear in the one product `N·(CF−1)`, so each follows from `N·CF = N·(CF−1) + N`. The byte layouts are
read as numbers to base 256, least digit first. -/

namespace Sys2Proof

/-! ## Sizes (R7, R8, R142) -/

section Sizes

variable (g : Config)

theorem Config.inBytes_eq : g.inBytes = 8 * g.CF * g.N := by
  have hM : g.M = 8 * (8 * g.CF * g.N) := by rw [Config.M]; ring
  rw [Config.inBytes, hM, Nat.mul_div_cancel_left _ (by decide)]

theorem Config.M_eq_inBytes_mul : g.M = g.inBytes * 8 := by
  rw [g.inBytes_eq, Config.M]; ring

theorem Config.lutWords_eq_matrix : g.lutWords = 32 * (g.N * g.M) := by
  rw [Config.lutWords, ← Config.inBytes, g.M_eq_inBytes_mul, byteValues]; ring

variable {g}

theorem Config.inBytes_eq_S_add (h : 1 ≤ g.CF) : g.inBytes = g.S + 8 * g.N * (g.CF - 1) := by
  obtain ⟨k, hk⟩ := Nat.exists_eq_add_of_le h
  rw [g.inBytes_eq, Config.S, hk, Nat.add_sub_cancel_left]; ring

theorem Config.B_eq (h : 1 ≤ g.CF) : g.B = 8 * g.N * (g.CF - 1) := by
  rw [Config.B, Config.inBytes_eq_S_add h, Nat.add_sub_cancel_left]

theorem Config.inBytes_eq_S_add_B (h : 1 ≤ g.CF) : g.inBytes = g.S + g.B := by
  rw [Config.inBytes_eq_S_add h, Config.B_eq h]

/-- R8's constraint is the bound on the block size. -/
theorem Config.sixteen_le_B (hcf : 1 ≤ g.CF) (h : 2 ≤ g.N * (g.CF - 1)) : 16 ≤ g.B := by
  rw [Config.B_eq hcf, Nat.mul_assoc]; omega

end Sizes

end Sys2Proof

namespace Sys2Proof.Machine

/-- Settles O5: every size from `IN_BYTES = S + 8·N·(CF−1)`. -/
theorem derivedSizes : Obligations.DerivedSizes := by
  rintro g ⟨-, hcf, hB, -, -⟩
  have hcf1 : 1 ≤ g.CF := Nat.one_le_of_lt hcf
  exact ⟨by rw [Config.M]; ring, g.inBytes_eq, g.M_eq_inBytes_mul.symm, rfl, rfl, rfl, Config.B_eq hcf1,
    Config.inBytes_eq_S_add_B hcf1, rfl, rfl, rfl, g.lutWords_eq_matrix, Config.sixteen_le_B hcf1 hB⟩

/-! ## The step (R8, R15) -/

section Step

variable {s : State} {c : Command} {rest : List HostMove}

theorem step_of_not_admitted (h : ¬ s.cfg.Admitted) : step s = .refused .configNotAdmitted := if_neg h

theorem step_of_command {i : Instr} (ha : s.cfg.Admitted) (hs : s.stream = .command c :: rest)
    (hd : decode c.word = .command i) : step s = exec i (takeCommand s c rest) := by
  simp [step, ha, hs, hd]

end Step

/-- Settles O6: a configuration outside R8 is not admitted; inside it R8's product bounds `B`. -/
theorem configurationsRefused : Obligations.ConfigurationsRefused := by
  refine ⟨fun s h => step_of_not_admitted fun ⟨hn, hcf, hp, _⟩ => h ⟨hn, hcf, hp⟩, fun g _ hcf hp => ?_⟩
  have hB : 16 ≤ g.B := Config.sixteen_le_B (Nat.one_le_of_lt hcf) hp
  exact ⟨hB, rfl, by rw [Config.P]; omega⟩

/-- Settles O7: the state `exec` runs on is the one that has taken the pair from the port. -/
theorem stepRunsDecodedCommand : Obligations.StepRunsDecodedCommand :=
  fun _ _ _ _ ha hs hd => step_of_command ha hs hd

/-! ## Byte layouts (R13) -/

theorem le64_getD {k : Nat} (v : Word) (hk : k < 8) : (le64 v).getD k 0 = v.extractLsb' (8 * k) 8 := by
  simp [le64, List.getD, hk]

theorem toNat_le64_getD {k : Nat} (v : Word) (hk : k < 8) :
    ((le64 v).getD k 0).toNat = v.toNat / 2 ^ (8 * k) % 256 := by
  rw [le64_getD v hk, BitVec.extractLsb'_toNat, Nat.shiftRight_eq_div_pow]

/-- The word of any byte sequence is its number to base 256, cut to 64 bits. -/
theorem toNat_fromLE64 (s : List Byte) : (fromLE64 s).toNat = Nat.ofDigits 256 (s.map (·.toNat)) % 2 ^ 64 := by
  induction s with
  | nil => rfl
  | cons b s ih =>
    simp [fromLE64, Nat.ofDigits_cons, ih, Nat.add_mod, Nat.mul_mod]

theorem ofDigits_bytes_lt (s : List Byte) : Nat.ofDigits 256 (s.map (·.toNat)) < 256 ^ s.length := by
  have h := Nat.ofDigits_lt_base_pow_length (b := 256) (l := s.map (·.toNat)) (by decide)
    (by simpa using fun b _ => b.isLt)
  rwa [List.length_map] at h

theorem ofDigits_bytes_eq_sum (s : List Byte) :
    Nat.ofDigits 256 (s.map (·.toNat)) = ∑ k ∈ Finset.range s.length, (s.getD k 0).toNat * 2 ^ (8 * k) := by
  induction s with
  | nil => rfl
  | cons b s ih =>
    rw [List.map_cons, Nat.ofDigits_cons, ih, List.length_cons, Finset.sum_range_succ', Finset.mul_sum, add_comm]
    congr 1
    · exact Finset.sum_congr rfl fun k _ => by rw [List.getD_cons_succ]; ring
    · simp

theorem toNat_fromLE64_eq_sum {s : List Byte} (h : s.length = 8) :
    (fromLE64 s).toNat = ∑ k ∈ Finset.range 8, (s.getD k 0).toNat * 2 ^ (8 * k) := by
  have hlt : Nat.ofDigits 256 (s.map (·.toNat)) < 2 ^ 64 := by simpa [h] using ofDigits_bytes_lt s
  rw [toNat_fromLE64, Nat.mod_eq_of_lt hlt, ofDigits_bytes_eq_sum, h]

/-- The lowest `n` base-256 digits of a number, summed at their places. -/
theorem sum_bytes_eq_mod (v n : Nat) :
    ∑ k ∈ Finset.range n, v / 2 ^ (8 * k) % 256 * 2 ^ (8 * k) = v % 2 ^ (8 * n) := by
  induction n with
  | zero => simp [Nat.mod_one]
  | succ n ih =>
    rw [Finset.sum_range_succ, ih, Nat.mul_succ, pow_add, show 2 ^ 8 = 256 from rfl, Nat.mod_mul, mul_comm (_ % 256)]

@[simp] theorem fromLE64_le64 (v : Word) : fromLE64 (le64 v) = v := by
  apply BitVec.eq_of_toNat_eq
  calc (fromLE64 (le64 v)).toNat
      = ∑ k ∈ Finset.range 8, ((le64 v).getD k 0).toNat * 2 ^ (8 * k) := toNat_fromLE64_eq_sum (le64_length v)
    _ = ∑ k ∈ Finset.range 8, v.toNat / 2 ^ (8 * k) % 256 * 2 ^ (8 * k) :=
        Finset.sum_congr rfl fun k hk => by rw [toNat_le64_getD v (Finset.mem_range.1 hk)]
    _ = v.toNat % 2 ^ 64 := sum_bytes_eq_mod v.toNat 8
    _ = v.toNat := Nat.mod_eq_of_lt v.isLt

/-- Byte `k` of word `i` stands at place `8i + k` of the words' bytes. -/
theorem ser_getD {ws : List Word} {i k : Nat} (hi : i < ws.length) (hk : k < 8) :
    (ser ws).getD (8 * i + k) 0 = (le64 (ws.getD i 0)).getD k 0 := by
  induction ws generalizing i with
  | nil => cases hi
  | cons v ws ih =>
    rw [ser_cons]
    cases i with
    | zero => rw [List.getD_append _ _ _ _ (by simpa using hk)]; simp
    | succ i =>
      rw [List.getD_append_right _ _ _ _ (by rw [le64_length]; omega), le64_length,
        show 8 * (i + 1) + k - 8 = 8 * i + k by omega, List.getD_cons_succ]
      exact ih (Nat.lt_of_succ_lt_succ hi)

/-- Settles O30: the layouts as numbers to base 256, and `SER` word after word. -/
theorem wordLayout : Obligations.WordLayout :=
  ⟨fun v => ⟨le64_length v, fun _ hk => toNat_le64_getD v hk⟩, fun _ h => toNat_fromLE64_eq_sum h, fromLE64_le64,
    fun ws => ⟨ser_length ws, fun _ hi _ hk => by rw [ser_getD hi hk, toNat_le64_getD _ hk]⟩⟩

end Sys2Proof.Machine

/-! # Proofs of 10_state.md: reset, the invariant, what a step keeps, and the status registers

`exec_did` and `step_cases` say everything a command and a step can do, so what every step keeps is first shown of each
named update of the state, then of `Did`, then of a step. -/

namespace Sys2Proof.Machine

variable {s t : State}

/-! ## The step as what its command did -/

/-- A step idles, resets, or performs what the host's next move asks. An illegal word is discarded or faults, which any
command can do (R88). -/
theorem step_did (h : step s = .next t) :
    (s.stream = [] ∧ t = s) ∨ (∃ rest, s.stream = .rst :: rest ∧ t = takeReset s rest) ∨
    ∃ c rest, s.stream = .command c :: rest ∧
      ((∃ i, nextCommand s = some (i, c) ∧ Did (takeCommand s c rest) i t) ∨ ∀ i, Did (takeCommand s c rest) i t) := by
  obtain ⟨-, hidle | hrst | ⟨c, rest, why, hs, -, hdo⟩ | ⟨c, rest, i, hs, hd, he⟩⟩ := step_cases h
  · exact .inl hidle
  · exact .inr (.inl hrst)
  · refine .inr (.inr ⟨c, rest, hs, .inr fun i => ?_⟩)
    obtain ⟨hf, rfl⟩ | ⟨hf, rfl⟩ := hdo
    · exact .discarded i hf
    · exact .faulted i _ hf
  · exact .inr (.inr ⟨c, rest, hs, .inl ⟨i, by simp [nextCommand, hs, hd], exec_did he⟩⟩)

/-- A step that does not idle or reset performs some command on the state with the pair taken from the port. -/
theorem step_did_of_no_reset (h : step s = .next t) (hr : resetNext s = false) :
    t = s ∨ ∃ c rest i, Did (takeCommand s c rest) i t := by
  obtain ⟨-, rfl⟩ | ⟨rest, hs, -⟩ | ⟨c, rest, -, ⟨i, -, hi⟩ | hi⟩ := step_did h
  · exact .inl rfl
  · simp [resetNext, hs] at hr
  · exact .inr ⟨c, rest, i, hi⟩
  · exact .inr ⟨c, rest, .mtxGen, hi _⟩

/-! ## The shapes of the grids and the contexts (R24, R25, R27) -/

theorem fillMatrix_shaped (g : Config) (e : List Byte) : matrixShaped g (fillMatrix g e) := by
  simp [matrixShaped, fillMatrix]

theorem deriveTable_shaped (g : Config) (a : Matrix) : tableShaped g (deriveTable g a) := by
  simp [tableShaped, deriveTable]

theorem zeroed_shaped {g : Config} (hB : 0 < g.B) (b : Bool) (sel : Compressor) : ctxShaped g (Ctx.zeroed g b sel) := by
  simpa [ctxShaped] using hB

theorem chain_length {B n : Nat} {f : List Byte → List Word} (hf : ∀ m, (f m).length = n) {h : List Word}
    (hh : h.length = n) (m : List Byte) (k : Nat) : (chain B f h m k).length = n := by
  cases k with
  | zero => exact hh
  | succ k => exact hf _

theorem absorb_shaped {g : Config} {f : List Byte → List Word} (hf : ∀ m, (f m).length = g.N) {x : Ctx}
    (hx : ctxShaped g x) (m : List Byte) : ctxShaped g (absorb g.B f x m) := by
  obtain ⟨hcv, hbuf, hnx⟩ := hx
  have hB : 0 < g.B := Nat.zero_lt_of_lt hnx
  obtain ⟨c, -⟩ := absorb_spec (f := f) hB hnx hbuf m
  exact ⟨c.cv ▸ chain_length hf hcv _ _, c.bufLen, c.nx ▸ Nat.mod_lt _ hB⟩

theorem getCtx_mem (h : s.Inv) {c : Nat} (hc : c < s.cfg.NUM_CTX) : getCtx s c ∈ s.ctxs := by
  have hlt : c < s.ctxs.length := h.ctxCount ▸ hc
  rw [getCtx, List.getD_eq_getElem _ _ hlt]
  exact List.getElem_mem hlt

theorem B_pos_of_admitted {g : Config} (h : g.Admitted) : 0 < g.B := by
  obtain ⟨-, hcf, hp, -⟩ := h
  exact Nat.lt_of_lt_of_le (by decide) (Config.sixteen_le_B (Nat.one_le_of_lt hcf) hp)

/-! ## The invariant under each named update -/

/-- The invariant does not speak of the ports. -/
theorem inv_ports (h : s.Inv) (cmd : Command) (stream : List HostMove) (entropy : List EntropyAnswer)
    (result : List Byte) : { s with cmd, stream, entropy, result }.Inv := { h with }

theorem inv_takeCommand (h : s.Inv) (c : Command) (rest : List HostMove) : (takeCommand s c rest).Inv :=
  inv_ports h c rest s.entropy s.result

theorem inv_emit (h : s.Inv) (b : List Byte) : (emit s b).Inv := inv_ports h s.cmd s.stream s.entropy (s.result ++ b)

/-- R201 has codes 1 to 9. -/
theorem causeCode_range (k : Cause) : 1 ≤ (causeCode k).toNat ∧ (causeCode k).toNat ≤ 9 := by cases k <;> decide

theorem inv_raiseFault (h : s.Inv) (k : Cause) : (raiseFault s k).Inv :=
  { h with notFaulted := nofun, faultedCause := fun _ => causeCode_range k }

/-- A bound context of its shape, with its compressor there, may be written. -/
theorem inv_setCtx (h : s.Inv) {x : Ctx} (c : Nat) (hshape : ctxShaped s.cfg x) (hbound : x.bound = true)
    (hready : compressorReady s x) : (setCtx s c x).Inv :=
  { h with
    ctxCount := by simpa using h.ctxCount
    ctxOk := fun y hy => (List.mem_or_eq_of_mem_set hy).elim (h.ctxOk y) (by rintro rfl; exact hshape)
    ctxZero := fun y hy => (List.mem_or_eq_of_mem_set hy).elim (h.ctxZero y) (by rintro rfl hb; simp [hbound] at hb)
    ctxReady := fun y hy => (List.mem_or_eq_of_mem_set hy).elim (h.ctxReady y) (by rintro rfl; exact hready) }

/-- Filling an empty matrix: the table is not valid then, so it need not agree with the new cells (R26). -/
theorem inv_setMatrix (h : s.Inv) (hm : s.matrixValid = false) {a : Matrix} (ha : matrixShaped s.cfg a) :
    (setMatrix s a).Inv :=
  { h with
    matrixOk := ha
    ctxReady := fun x hx hb => ⟨fun _ => rfl, (h.ctxReady x hx hb).2⟩
    tableDerived := fun hl => by have := (h.tableDerived hl).1; simp [hm] at this }

theorem inv_setTable (h : s.Inv) (hm : s.matrixValid = true) : (setTable s (deriveTable s.cfg s.matrix)).Inv :=
  { h with
    tableOk := deriveTable_shaped _ _
    ctxReady := fun x hx hb => ⟨(h.ctxReady x hx hb).1, fun _ => rfl⟩
    tableDerived := fun _ => ⟨hm, rfl⟩ }

theorem inv_resetWith {g : Config} (hg : g.Admitted) : (State.resetWith g).Inv where
  admitted := hg
  matrixOk := by simp [matrixShaped]
  tableOk := by simp [tableShaped]
  ctxCount := by simp
  ctxOk x hx := List.eq_of_mem_replicate hx ▸ zeroed_shaped (B_pos_of_admitted hg) _ _
  ctxZero x hx _ := List.eq_of_mem_replicate hx
  ctxReady x hx hb := by rw [List.eq_of_mem_replicate hx] at hb; cases hb
  tableDerived := nofun
  notFaulted _ := ⟨rfl, rfl⟩
  faultedCause := nofun

theorem inv_takeReset (h : s.Inv) (rest : List HostMove) : (takeReset s rest).Inv :=
  inv_ports (inv_resetWith h.admitted) s.cmd rest s.entropy s.result

/-! ## The invariant and the residue under every step (R28) -/

theorem Did.inv {i : Instr} (hd : Did s i t) (h : s.Inv) : t.Inv := by
  have hB : 0 < s.cfg.B := B_pos_of_admitted h.admitted
  cases hd with
  | discarded => exact h
  | faulted _ k => exact inv_raiseFault h k
  | entropyFault rest => exact inv_raiseFault (inv_ports h s.cmd s.stream rest s.result) _
  | filled e rest _ hm =>
    exact inv_setMatrix (inv_ports h s.cmd s.stream rest s.result) hm (fillMatrix_shaped _ e)
  | derived _ hm => exact inv_setTable h hm
  | compressedRef => exact inv_emit h _
  | compressedLut => exact inv_emit h _
  | boundRef c _ _ hm => exact inv_setCtx h c (zeroed_shaped hB _ _) rfl fun _ => ⟨fun _ => hm, nofun⟩
  | boundLut c _ _ hm => exact inv_setCtx h c (zeroed_shaped hB _ _) rfl fun _ => ⟨nofun, fun _ => hm⟩
  | absorbed c n _ hc hb =>
    have hx := getCtx_mem h hc
    have hshape := h.ctxOk _ hx
    have ⟨_, hbuf, hnx⟩ := hshape
    obtain ⟨-, hbound, hsel, -⟩ := absorb_spec (f := compressOf s (getCtx s c).sel) hB hnx hbuf s.cmd.pay
    refine inv_setCtx h c (absorb_shaped (compressOf_length s _) hshape _) (hbound.trans hb) fun _ => ?_
    rw [hsel]
    exact h.ctxReady _ hx hb
  | digested c d => exact inv_emit h d
  | cleared c _ hc hb =>
    exact inv_setCtx h c (zeroed_shaped hB _ _) rfl fun _ => h.ctxReady (getCtx s c) (getCtx_mem h hc) hb
  | read => exact inv_emit h _

/-- Settles O13: each named update keeps the invariant, and a step is made of these. -/
theorem stepKeepsInvariant : Obligations.StepKeepsInvariant := by
  intro s t h hstep
  obtain ⟨-, rfl⟩ | ⟨rest, -, rfl⟩ | ⟨c, rest, -, ⟨i, -, hd⟩ | hd⟩ := step_did hstep
  · exact h
  · exact inv_takeReset h rest
  · exact hd.inv (inv_takeCommand h c rest)
  · exact (hd .mtxGen).inv (inv_takeCommand h c rest)

/-- Absorbing `n` bytes keeps `NX = LEN mod B` where the count does not wrap, or wraps at a multiple of `B`. -/
theorem absorb_residue {B : Nat} {f : List Byte → List Word} {x : Ctx} {m : List Byte} (hnx : x.nx < B)
    (hbuf : x.buf.length = B) (hx : x.nx = x.len.toNat % B)
    (hw : B ∣ 2 ^ 64 ∨ x.len.toNat + m.length < 2 ^ 64) :
    (absorb B f x m).nx = (absorb B f x m).len.toNat % B := by
  obtain ⟨c, -, -, hlen⟩ := absorb_spec (f := f) (Nat.zero_lt_of_lt hnx) hnx hbuf m
  have hcount : (x.len.toNat + m.length) % 2 ^ 64 % B = (x.len.toNat + m.length) % B :=
    hw.elim (Nat.mod_mod_of_dvd _) fun h => by rw [Nat.mod_eq_of_lt h]
  calc (absorb B f x m).nx
      = (x.nx + m.length) % B := by rw [c.nx]; simp [hbuf, hnx.le]
    _ = (x.len.toNat + m.length) % B := by rw [hx, Nat.mod_add_mod]
    _ = (absorb B f x m).len.toNat % B := by rw [hlen, ← hcount]; simp

theorem carriesResidue_setCtx (h : carriesResidue s) {x : Ctx} (c : Nat) (hx : x.nx = x.len.toNat % s.cfg.B) :
    carriesResidue (setCtx s c x) :=
  fun y hy => (List.mem_or_eq_of_mem_set hy).elim (h y) (by rintro rfl; exact hx)

theorem carriesResidue_resetWith (g : Config) : carriesResidue (State.resetWith g) := by
  intro x hx
  rw [List.eq_of_mem_replicate hx]
  simp [Ctx.unbound]

theorem Did.residue {i : Instr} (hd : Did s i t) (h : s.Inv) (hres : carriesResidue s)
    (hw : s.cfg.B ∣ 2 ^ 64 ∨ ∀ c n, i = .mdUpdate c n → ∀ x ∈ s.ctxs, x.len.toNat + s.cmd.pay.length < 2 ^ 64) :
    carriesResidue t := by
  cases hd with
  | boundRef c => exact carriesResidue_setCtx hres c (by simp)
  | boundLut c => exact carriesResidue_setCtx hres c (by simp)
  | absorbed c n _ hc =>
    have hx := getCtx_mem h hc
    obtain ⟨-, hbuf, hnx⟩ := h.ctxOk _ hx
    exact carriesResidue_setCtx hres c
      (absorb_residue hnx hbuf (hres _ hx) (hw.imp_right fun hlt => hlt c n rfl _ hx))
  | cleared c => exact carriesResidue_setCtx hres c (by simp)
  | _ => exact hres

/-- Settles O14: only MD.UPDATE moves NX and LEN from 0, by the same count. -/
theorem stepKeepsResidue : Obligations.StepKeepsResidue := by
  intro s t h hres hstep hw
  obtain ⟨-, rfl⟩ | ⟨rest, -, rfl⟩ | ⟨c, rest, -, ⟨i, hn, hd⟩ | hd⟩ := step_did hstep
  · exact hres
  · exact carriesResidue_resetWith s.cfg
  · exact hd.residue (inv_takeCommand h c rest) hres (hw.imp_right fun hlt _ _ _ x hx => hlt x hx c i hn)
  · exact (hd .mtxGen).residue (inv_takeCommand h c rest) hres (.inr nofun)

/-- Settles O12: the reset state has grids of zeros of their shapes and unbound contexts only. -/
theorem resetMeetsInvariant : Obligations.ResetMeetsInvariant :=
  ⟨fun g hg => ⟨inv_resetWith hg, carriesResidue_resetWith g⟩, inv_resetWith (by decide), carriesResidue_resetWith _⟩

end Sys2Proof.Machine

/-! # Proofs of 10_state.md: unspecified cells

Two states that differ only in cells the spec leaves unspecified (R24, R25) run side by side: every command reads the
matrix or the table only behind the check of its valid bit, so the two answers differ only there again. -/

namespace Sys2Proof.Machine

/-! ## What a step and CSR.RD answer, case by case -/

section Answers

variable {s : State} {c : Command} {rest : List HostMove}

theorem step_of_idle (ha : s.cfg.Admitted) (hs : s.stream = []) : step s = .next s := by simp [step, ha, hs, idle]

theorem step_of_rst (ha : s.cfg.Admitted) (hs : s.stream = .rst :: rest) : step s = .next (takeReset s rest) := by
  simp [step, ha, hs]

theorem step_of_illegal {why : IllegalReason} (ha : s.cfg.Admitted) (hs : s.stream = .command c :: rest)
    (hd : decode c.word = .illegal why) : step s = execIllegal (takeCommand s c rest) := by
  simp [step, ha, hs, hd]

theorem exec_csrRd_of_empty (k : Nat) (hp : s.cmd.pay = []) :
    exec (.csrRd k) s = .next (emit s (le64 (csr s k))) := by
  simp [exec, execCsrRd, guarded, firstFailure, checkPayload, hp]

/-- With a nonempty payload CSR.RD is like every other command: discarded while FAULTED = 1, else fault 7 (R181). -/
theorem exec_csrRd_of_nonempty (k : Nat) (hp : s.cmd.pay ≠ []) :
    exec (.csrRd k) s = perform s [checkPayload s 0] (.next s) := by
  cases hf : s.faulted <;> simp [exec, execCsrRd, perform, guarded, firstFailure, checkPayload, hp, hf]

end Answers

/-! ## Answers that tell nothing of unspecified cells (R206) -/

/-- Next states that differ only in the cells of an invalid matrix or table, or the same stop. -/
inductive Alike : Result → Result → Prop where
  | next {t t' : State} (h : sameButUnread t t') : Alike (.next t) (.next t')
  | fault (r : Fault) : Alike (.fault r) (.fault r)
  | refused (r : Refusal) : Alike (.refused r) (.refused r)

/-- The state with other grids. -/
abbrev regrid (s : State) (a : Matrix) (tbl : Table) : State := { s with matrix := a, table := tbl }

section Unread

variable {s : State} {a : Matrix} {tbl : Table}

/-- Checks read no cell, so the two states are alike when their effects are. -/
theorem perform_alike (h : sameButUnread s (regrid s a tbl)) (checks : List Check) {effect effect' : Result}
    (he : (∀ p ∈ checks, p.1 = false) → Alike effect effect') :
    Alike (perform s checks effect) (perform (regrid s a tbl) checks effect') := by
  obtain ⟨hm, hl, -⟩ := h
  obtain ⟨hf, hs⟩ | ⟨hf, k, hk, hs⟩ | ⟨hf, hk, hs⟩ := perform_cases s checks effect
  · rw [hs, perform_faulted (s := regrid s a tbl) hf]
    exact .next ⟨hm, hl, rfl⟩
  · rw [hs, perform_fails (s := regrid s a tbl) hf hk]
    exact .next ⟨hm, hl, rfl⟩
  · rw [hs, perform_passes (s := regrid s a tbl) hf hk]
    exact he (firstFailure_none.1 hk)

theorem entropyRead_alike (h : sameButUnread s (regrid s a tbl)) (n : Nat) {goOn : List Byte → State → Result}
    (hgo : ∀ e rest, Alike (goOn e { s with entropy := rest }) (goOn e { regrid s a tbl with entropy := rest })) :
    Alike (entropyRead s n goOn) (entropyRead (regrid s a tbl) n goOn) := by
  obtain ⟨hm, hl, -⟩ := h
  simp only [entropyRead]
  cases s.entropy with
  | nil => exact .fault _
  | cons answer rest =>
    cases answer with
    | err => exact .next ⟨hm, hl, rfl⟩
    | ok e =>
      by_cases hn : e.length = n
      · simpa only [hn, if_true] using hgo e rest
      · simpa only [hn, if_false] using .refused _

/-- The compressor of a bound context reads only valid cells (R141). -/
theorem compressOf_regrid (h : sameButUnread s (regrid s a tbl)) {x : Ctx} (hx : compressorReady s x)
    (hb : x.bound = true) : compressOf (regrid s a tbl) x.sel = compressOf s x.sel := by
  obtain ⟨hm, hl, -⟩ := h
  obtain ⟨href, hlut⟩ := hx hb
  cases hsel : x.sel with
  | ref => exact congrArg (compressRef s.cfg) (hm (href hsel)).symm
  | lut => exact congrArg (compressLut s.cfg) (hl (hlut hsel)).symm

/-- MD.UPDATE and MD.FINAL run the same compression on the two states once their checks pass. -/
theorem compressOf_getCtx_regrid (hinv : s.Inv) (h : sameButUnread s (regrid s a tbl)) {c : Nat} {rest : List Check}
    (hc : ∀ p ∈ checkCtxRange s c :: checkCtxBound s c :: rest, p.1 = false) :
    compressOf (regrid s a tbl) (getCtx s c).sel = compressOf s (getCtx s c).sel := by
  obtain ⟨hrange, hbound, -⟩ : c < s.cfg.NUM_CTX ∧ (getCtx s c).bound = true ∧ ∀ p ∈ rest, p.1 = false := by
    simpa [checkCtxRange, checkCtxBound] using hc
  exact compressOf_regrid h (hinv.ctxReady _ (getCtx_mem hinv hrange)) hbound

/-- No command tells the two states apart. -/
theorem exec_alike (hinv : s.Inv) (h : sameButUnread s (regrid s a tbl)) (i : Instr) :
    Alike (exec i s) (exec i (regrid s a tbl)) := by
  have ⟨hm, hl, _⟩ := h
  cases i with
  | mtxGen => exact perform_alike h _ fun _ => entropyRead_alike h _ fun e rest => .next ⟨fun _ => rfl, hl, rfl⟩
  | lutDerive =>
    refine perform_alike h _ fun hc => ?_
    have ha : a = s.matrix := (hm (by simpa [checkMatrixReady] using hc _ List.mem_cons_self)).symm
    exact .next ⟨hm, fun _ => by rw [ha]; rfl, rfl⟩
  | cmpRef =>
    refine perform_alike h _ fun hc => ?_
    have ha : a = s.matrix := (hm (by simpa [checkMatrixReady] using hc _ List.mem_cons_self)).symm
    exact .next ⟨hm, hl, by rw [ha]; rfl⟩
  | cmpLut =>
    refine perform_alike h _ fun hc => ?_
    have ht : tbl = s.table := (hl (by simpa [checkLutReady] using hc _ List.mem_cons_self)).symm
    exact .next ⟨hm, hl, by rw [ht]; rfl⟩
  | mdInitRef c => exact perform_alike h _ fun _ => .next ⟨hm, hl, rfl⟩
  | mdInitLut c => exact perform_alike h _ fun _ => .next ⟨hm, hl, rfl⟩
  | mdUpdate c n =>
    refine perform_alike h _ fun hc => .next ⟨hm, hl, ?_⟩
    exact congrArg (fun f => setCtx (regrid s a tbl) c (absorb s.cfg.B f (getCtx s c) s.cmd.pay))
      (compressOf_getCtx_regrid hinv h hc)
  | mdFinal c =>
    refine perform_alike h _ fun hc => ?_
    show Alike _ (emitDigest _ (finalize _ (compressOf (regrid s a tbl) (getCtx s c).sel) _))
    rw [compressOf_getCtx_regrid hinv h hc]
    show Alike _ (emitDigest _ (finalize s.cfg.B (compressOf s (getCtx s c).sel) (getCtx s c)))
    cases finalize s.cfg.B (compressOf s (getCtx s c).sel) (getCtx s c) with
    | none => exact .next ⟨hm, hl, rfl⟩
    | some d => exact .next ⟨hm, hl, rfl⟩
  | mdReset c => exact perform_alike h _ fun _ => .next ⟨hm, hl, rfl⟩
  | csrRd k =>
    by_cases hp : s.cmd.pay = []
    · rw [exec_csrRd_of_empty k hp, exec_csrRd_of_empty (s := regrid s a tbl) k hp]
      exact .next ⟨hm, hl, rfl⟩
    · rw [exec_csrRd_of_nonempty k hp, exec_csrRd_of_nonempty (s := regrid s a tbl) k hp]
      exact perform_alike h _ fun _ => .next h

theorem step_alike (hinv : s.Inv) (h : sameButUnread s (regrid s a tbl)) : Alike (step s) (step (regrid s a tbl)) := by
  have ha := hinv.admitted
  have ⟨hm, hl, _⟩ := h
  cases hs : s.stream with
  | nil =>
    rw [step_of_idle ha hs, step_of_idle (s := regrid s a tbl) ha hs]
    exact .next h
  | cons move rest =>
    cases move with
    | rst =>
      rw [step_of_rst ha hs, step_of_rst (s := regrid s a tbl) ha hs]
      exact .next ⟨nofun, nofun, rfl⟩
    | command c =>
      have htaken : sameButUnread (takeCommand s c rest) (regrid (takeCommand s c rest) a tbl) := ⟨hm, hl, rfl⟩
      cases hd : decode c.word with
      | command i =>
        rw [step_of_command ha hs hd, step_of_command (s := regrid s a tbl) ha hs hd]
        exact exec_alike (inv_takeCommand hinv c rest) htaken i
      | illegal why =>
        rw [step_of_illegal ha hs hd, step_of_illegal (s := regrid s a tbl) ha hs hd]
        exact perform_alike htaken _ fun _ => .next htaken

end Unread

theorem Alike.answers {r r' : Result} (h : Alike r r') :
    (∀ t, r = .next t → ∃ t', r' = .next t' ∧ sameButUnread t t' ∧ t'.result = t.result) ∧
    (∀ f, r = .fault f → r' = .fault f) ∧ (∀ f, r = .refused f → r' = .refused f) := by
  cases h with
  | @next t t' h => exact ⟨by rintro _ ⟨⟩; exact ⟨t', rfl, h, by rw [h.2.2]⟩, nofun, nofun⟩
  | fault => exact ⟨nofun, fun _ hr => hr, nofun⟩
  | refused => exact ⟨nofun, nofun, fun _ hr => hr⟩

/-- Settles O59: the two steps answer alike. -/
theorem unreadCellsInvisible : Obligations.UnreadCellsInvisible := by
  intro s s' hinv h
  have hs' : s' = regrid s s'.matrix s'.table := h.2.2
  rw [hs'] at h ⊢
  exact (step_alike hinv h).answers

end Sys2Proof.Machine

/-! # Proofs of 10_state.md: what a command writes, consumes and emits

Each is read off `Did`, constructor by constructor, then carried to the step. -/

namespace Sys2Proof.Machine

variable {s t : State} {i : Instr}

/-! ## Matrix and table (R23 to R26) -/

theorem Did.keeps_valid (hd : Did s i t) (hinv : s.Inv) :
    (s.matrixValid = true → t.matrixValid = true ∧ t.matrix = s.matrix) ∧
    (s.lutValid = true → t.lutValid = true ∧ t.table = s.table) := by
  cases hd with
  | filled _ _ _ hm => exact ⟨fun h => by simp [hm] at h, fun h => ⟨h, rfl⟩⟩
  | derived => exact ⟨fun h => ⟨h, rfl⟩, fun h => ⟨rfl, (hinv.tableDerived h).2.symm⟩⟩
  | _ => exact ⟨fun h => ⟨h, rfl⟩, fun h => ⟨h, rfl⟩⟩

/-- Settles O15: MTX.GEN fills only an empty matrix, and LUT.DERIVE derives again the table the invariant gives. -/
theorem matrixAndTableImmutable : Obligations.MatrixAndTableImmutable := by
  intro s t hinv hr h
  obtain rfl | ⟨c, rest, i, hd⟩ := step_did_of_no_reset h hr
  · exact ⟨fun h => ⟨h, rfl⟩, fun h => ⟨h, rfl⟩⟩
  · exact hd.keeps_valid (inv_takeCommand hinv c rest)

theorem Did.sets_matrixValid (hd : Did s i t) (hs : s.matrixValid = false) (ht : t.matrixValid = true) :
    i = .mtxGen ∧ ∃ e rest, s.entropy = .ok e :: rest ∧ e.length = s.cfg.entBytes ∧ t.matrix = fillMatrix s.cfg e := by
  cases hd with
  | filled e rest _ _ _ he hl => exact ⟨rfl, e, rest, he, hl, rfl⟩
  | _ => exact nomatch hs.symm.trans ht

theorem Did.sets_lutValid (hd : Did s i t) (hs : s.lutValid = false) (ht : t.lutValid = true) :
    i = .lutDerive ∧ s.matrixValid = true ∧ t.matrix = s.matrix ∧ t.table = deriveTable s.cfg s.matrix := by
  cases hd with
  | derived _ hm => exact ⟨rfl, hm, rfl, rfl⟩
  | _ => exact nomatch hs.symm.trans ht

/-- Settles O16: of the updates only `setMatrix` and `setTable` set a valid bit. -/
theorem validBitsSetOnlyByTheirCommands : Obligations.ValidBitsSetOnlyByTheirCommands := by
  intro s t h
  obtain ⟨-, rfl⟩ | ⟨rest, -, rfl⟩ | ⟨c, rest, -, ⟨i, hn, hd⟩ | hd⟩ := step_did h
  · exact ⟨fun hs ht => (nomatch hs.symm.trans ht), fun hs ht => (nomatch hs.symm.trans ht)⟩
  · exact ⟨nofun, nofun⟩
  · refine ⟨fun hs ht => ?_, fun hs ht => ?_⟩
    · obtain ⟨rfl, e, rest', he, hl, ha⟩ := hd.sets_matrixValid hs ht
      exact ⟨c, e, rest', hn, he, hl, ha⟩
    · obtain ⟨rfl, hm, ha, hT⟩ := hd.sets_lutValid hs ht
      exact ⟨c, hn, hm, ha, hT⟩
  · exact ⟨fun hs ht => (nomatch ((hd .lutDerive).sets_matrixValid hs ht).1),
      fun hs ht => (nomatch ((hd .mtxGen).sets_lutValid hs ht).1)⟩

/-! ## The entropy port (R41) -/

theorem Did.entropy (hd : Did s i t) :
    t.entropy = s.entropy ∨
    i = .mtxGen ∧ s.faulted = false ∧ s.matrixValid = false ∧ s.cmd.pay = [] ∧ ∃ a, s.entropy = a :: t.entropy := by
  cases hd with
  | entropyFault rest hf hm hp he => exact .inr ⟨rfl, hf, hm, hp, .err, he⟩
  | filled e rest hf hm hp he => exact .inr ⟨rfl, hf, hm, hp, .ok e, he⟩
  | _ => exact .inl rfl

/-- Settles O56: of what a command can do only MTX.GEN's two answers take from the port. -/
theorem entropyOnlyForMtxGen : Obligations.EntropyOnlyForMtxGen := by
  intro s t h
  obtain ⟨-, rfl⟩ | ⟨rest, -, rfl⟩ | ⟨c, rest, -, ⟨i, hn, hd⟩ | hd⟩ := step_did h
  · exact .inl rfl
  · exact .inl rfl
  · refine hd.entropy.imp_right ?_
    rintro ⟨rfl, hf, hm, hp, a, ha⟩
    exact ⟨c, a, hn, hf, hm, hp, ha⟩
  · exact (hd .lutDerive).entropy.imp_right fun ⟨hne, _⟩ => nomatch hne

/-! ## The fault registers (R37, R205) -/

/-- On a faulted block only CSR.RD does anything, and it only emits (R205). -/
theorem Did.frame_of_faulted (hd : Did s i t) (hf : s.faulted = true) : t = { s with result := t.result } := by
  cases hd with
  | discarded => rfl
  | read => rfl
  | _ => exact absurd ‹s.faulted = false› (by simp [hf])

theorem Did.registers_of_unfaulted (hd : Did s i t) (hf : t.faulted = false) : t.cause = s.cause ∧ t.fcmd = s.fcmd := by
  cases hd with
  | faulted => cases hf
  | entropyFault => cases hf
  | _ => exact ⟨rfl, rfl⟩

/-- Settles O52: only `raiseFault` writes the fault registers, and a faulted block raises none. -/
theorem faultStaysUntilReset : Obligations.FaultStaysUntilReset := by
  intro s t hr h
  obtain rfl | ⟨c, rest, i, hd⟩ := step_did_of_no_reset h hr
  · exact ⟨fun hf => ⟨hf, rfl, rfl, rfl, rfl, rfl, rfl, rfl, rfl⟩, fun _ _ => ⟨rfl, rfl⟩⟩
  · refine ⟨fun hf => ?_, fun _ ht => hd.registers_of_unfaulted ht⟩
    rw [hd.frame_of_faulted hf]
    exact ⟨hf, rfl, rfl, rfl, rfl, rfl, rfl, rfl, rfl⟩

/-! ## Frames (R29, R38) -/

/-- Settles O53: an emitting command is discarded, faults or emits. -/
theorem emittingCommandsFrame : Obligations.EmittingCommandsFrame := by
  intro s t i hi h
  cases exec_did h with
  | discarded => exact ⟨rfl, fun _ => ⟨rfl, rfl⟩, fun hne => absurd rfl hne⟩
  | faulted _ k hf => exact ⟨rfl, fun heq => by simp [hf] at heq, fun _ => rfl⟩
  | compressedRef | compressedLut | digested | read =>
    exact ⟨rfl, fun _ => ⟨rfl, rfl⟩, fun hne => absurd rfl hne⟩
  | _ => simp at hi

theorem setCtx_getElem?_of_ne {c d : Nat} (h : c ≠ d) (x : Ctx) : (setCtx s c x).ctxs[d]? = s.ctxs[d]? :=
  List.getElem?_set_ne h

/-- A command writes the context it names and no other, and then neither grid (R29). -/
theorem Did.writes_named_ctx (hd : Did s i t) :
    (∀ d, ctxNamed i ≠ some d → t.ctxs[d]? = s.ctxs[d]?) ∧
    ∀ c, ctxNamed i = some c → t.matrix = s.matrix ∧ t.table = s.table := by
  cases hd with
  | filled => exact ⟨fun _ _ => rfl, nofun⟩
  | derived => exact ⟨fun _ _ => rfl, nofun⟩
  | boundRef c | boundLut c | absorbed c | cleared c =>
    exact ⟨fun d hne => setCtx_getElem?_of_ne (fun hcd => hne (congrArg some hcd)) _, fun _ _ => ⟨rfl, rfl⟩⟩
  | _ => exact ⟨fun _ _ => rfl, fun _ _ => ⟨rfl, rfl⟩⟩

/-- Settles O55: the MD commands that write a context are discarded, fault or set the context they name. -/
theorem contextCommandsFrame : Obligations.ContextCommandsFrame := by
  refine ⟨fun s t i h => (exec_did h).writes_named_ctx, fun s t i c hi h => ?_⟩
  cases exec_did h with
  | discarded => exact ⟨rfl, rfl, fun _ => ⟨rfl, rfl⟩, fun hne => absurd rfl hne⟩
  | faulted _ k hf => exact ⟨rfl, rfl, fun heq => by simp [hf] at heq, fun _ => rfl⟩
  | boundRef | boundLut | absorbed | cleared =>
    exact ⟨rfl, List.length_set, fun _ => ⟨rfl, rfl⟩, fun hne => absurd rfl hne⟩
  | _ => simp at hi

/-! ## The result port (R42) -/

/-- A digest has `S` bytes (R142, R152). -/
theorem finalize_length {g : Config} {f : List Byte → List Word} (hf : ∀ m, (f m).length = g.N) {x : Ctx}
    (hx : ctxShaped g x) {d : List Byte} (hd : finalize g.B f x = some d) : d.length = 8 * g.N := by
  obtain ⟨hcv, -⟩ : ctxShaped g (padded g.B f x) := absorb_shaped hf (absorb_shaped hf hx _) _
  obtain ⟨-, rfl⟩ : (padded g.B f x).nx = 0 ∧ ser (padded g.B f x).cv = d := by simpa [finalize] using hd
  rw [ser_length, hcv]

/-- CSR.RD emits its register's 8 bytes exactly when its payload is empty (R180, R181). -/
theorem exec_csrRd_result {k : Nat} (h : exec (.csrRd k) s = .next t) :
    t.result = s.result ++ if s.cmd.pay = [] then le64 (csr s k) else [] := by
  by_cases hp : s.cmd.pay = []
  · rw [exec_csrRd_of_empty k hp] at h
    cases h
    simp [hp]
  · rw [if_neg hp, List.append_nil]
    cases exec_did h with
    | read _ hp' => exact absurd hp' hp
    | _ => rfl

/-- Settles O57: an emission is a compression, a digest or a status register. -/
theorem onlyListedCommandsEmit : Obligations.OnlyListedCommandsEmit := by
  intro s t i hinv h
  by_cases hk : ∃ k, i = .csrRd k
  · obtain ⟨k, rfl⟩ := hk
    refine ⟨_, exec_csrRd_result h, by simp, fun _ => ?_, by simp⟩
    split <;> simp
  · cases exec_did h with
    | discarded _ hf => exact ⟨[], by simp, fun _ => by simp [hf], fun hk' => absurd hk' hk, fun _ _ => rfl⟩
    | faulted => exact ⟨[], by simp, fun _ => by simp, fun hk' => absurd hk' hk, fun _ _ => rfl⟩
    | compressedRef hf => exact ⟨_, rfl, fun _ => by simp [hf], by simp, by simp⟩
    | compressedLut hf => exact ⟨_, rfl, fun _ => by simp [hf], by simp, by simp⟩
    | digested c d hf hc hb hp hd =>
      have hlen : d.length = 8 * s.cfg.N := finalize_length (compressOf_length s _) (hinv.ctxOk _ (getCtx_mem hinv hc)) hd
      exact ⟨d, rfl, fun _ => by simp [hf, hlen], by simp, by simp⟩
    | read k => exact absurd ⟨k, rfl⟩ hk
    | _ => exact ⟨[], by simp, by simp, by simp, fun _ _ => rfl⟩

/-! ## `BUF[NX..B)` (R28, U3) -/

section Tail

variable {B : Nat} {f : List Byte → List Word} {x y : Ctx}

theorem absorb_sameCarried (hnx : x.nx < B) (hbuf : x.buf.length = B) (h : sameCarried x y) (m : List Byte) :
    sameCarried (absorb B f x m) (absorb B f y m) := by
  obtain ⟨hbound, hsel, hcv, hnx', hlen, htake, hbuf'⟩ := h
  have hB : 0 < B := Nat.zero_lt_of_lt hnx
  obtain ⟨cx, hxb, hxs, hxl⟩ := absorb_spec (f := f) hB hnx hbuf m
  obtain ⟨cy, hyb, hys, hyl⟩ := absorb_spec (f := f) hB (hnx' ▸ hnx) (hbuf' ▸ hbuf) m
  rw [← htake, ← hcv] at cy
  exact ⟨by rw [hxb, hyb, hbound], by rw [hxs, hys, hsel], by rw [cx.cv, cy.cv], by rw [cx.nx, cy.nx],
    by rw [hxl, hyl, hlen], by rw [cx.carried, cy.carried], by rw [cx.bufLen, cy.bufLen]⟩

theorem finalize_of_sameCarried (hnx : x.nx < B) (hbuf : x.buf.length = B) (h : sameCarried x y) :
    finalize B f x = finalize B f y := by
  have hB : 0 < B := Nat.zero_lt_of_lt hnx
  obtain ⟨c, -⟩ := absorb_spec (f := f) hB hnx hbuf (padBytes B x.len)
  have ⟨_, _, _, _, hlen, _⟩ := h
  obtain ⟨-, -, hcv, hnx', -⟩ : sameCarried (padded B f x) (padded B f y) := by
    rw [padded, padded, ← hlen]
    exact absorb_sameCarried (c.nx ▸ Nat.mod_lt _ hB) c.bufLen (absorb_sameCarried hnx hbuf h _) _
  rw [finalize, finalize, hnx', hcv]

end Tail

/-- Settles O42: Absorb reads the buffer only through the bytes carried. -/
theorem bufferTailUnused : Obligations.BufferTailUnused :=
  fun _ _ _ _ m _ hnx hbuf h => ⟨absorb_sameCarried hnx hbuf h m, finalize_of_sameCarried hnx hbuf h⟩

end Sys2Proof.Machine

/-! # Proofs of 10_state.md: the status registers

A register is a disjunction of fields, so each of its bits and parts is read field by field. -/

namespace Sys2Proof.Machine

variable {s t : State}

/-! ## Fields of a register -/

section Fields

variable {n lo : Nat} (v : BitVec n)

theorem regField_getLsbD (lo b : Nat) :
    (regField v lo).getLsbD b = (decide (b < 64) && (!decide (b < lo) && v.getLsbD (b - lo))) := by
  rw [regField, BitVec.getLsbD_shiftLeft, BitVec.getLsbD_setWidth, Bool.and_assoc]
  by_cases hb : b < 64
  · simp [hb, show b - lo < 64 by omega]
  · simp [hb]

theorem regField_extract (h : lo + n ≤ 64) : (regField v lo).extractLsb' lo n = v := by
  refine BitVec.eq_of_getLsbD_eq fun i hi => ?_
  simp only [BitVec.getLsbD_extractLsb', regField_getLsbD]
  simp [hi, show lo + i < 64 by omega]

theorem regField_extract_below {l m : Nat} (h : l + m ≤ lo) : (regField v lo).extractLsb' l m = 0#m := by
  refine BitVec.eq_of_getLsbD_eq fun i hi => ?_
  simp only [BitVec.getLsbD_extractLsb', regField_getLsbD]
  simp [show l + i < lo by omega]

theorem regField_extract_above {l m : Nat} (h : lo + n ≤ l) : (regField v lo).extractLsb' l m = 0#m := by
  refine BitVec.eq_of_getLsbD_eq fun i hi => ?_
  simp only [BitVec.getLsbD_extractLsb', regField_getLsbD]
  simp [BitVec.getLsbD_of_ge v (l + i - lo) (by omega)]

@[simp] theorem regField_zero (lo : Nat) : regField (0#n) lo = 0 := by simp [regField]

end Fields

/-! ## The map of R30 -/

theorem csr_status (s : State) : csr s 0x00 = status s := rfl

theorem csr_faultInfo (s : State) : csr s 0x01 = faultInfo s := rfl

theorem csr_ctxStatus {c : Nat} (hc : c < 16) : csr s (0x10 + c) = ctxStatus s c := by
  interval_cases c <;> rfl

theorem csr_ctxLen {c : Nat} (hc : c < 16) : csr s (0x20 + c) = ctxLen s c := by
  interval_cases c <;> rfl

/-- Every index R30 does not list (R36). -/
theorem csr_reserved {k : Nat} (hk : 8 < k ∧ k < 0x10 ∨ 0x30 ≤ k) : csr s k = 0 := by
  unfold csr
  repeat rw [if_neg (by omega)]

theorem csr_cfgRegister {r : Nat × Nat} (hr : r ∈ cfgRegisters s.cfg) : csr s r.1 = cfgWord r.2 := by
  simp only [cfgRegisters, List.mem_cons, List.not_mem_nil, or_false] at hr
  rcases hr with rfl | rfl | rfl | rfl | rfl | rfl | rfl <;> rfl

theorem csr_cfgRegister_toNat {r : Nat × Nat} (hr : r ∈ cfgRegisters s.cfg) (h : r.2 < 2 ^ 64) :
    (csr s r.1).toNat = r.2 := by
  rw [csr_cfgRegister hr, cfgWord, BitVec.toNat_ofNat, Nat.mod_eq_of_lt h]

/-- The configuration registers are functions of the configuration (R33). -/
theorem csr_eq_of_cfg_eq (h : t.cfg = s.cfg) {k : Nat} (h2 : 2 ≤ k) (h8 : k ≤ 8) : csr t k = csr s k := by
  interval_cases k <;> simp [csr, h]

/-! ## The registers at reset (R45) -/

theorem getCtx_resetWith (g : Config) (c : Nat) : getCtx (State.resetWith g) c = Ctx.unbound g := by
  rw [getCtx, resetWith_ctxs, List.getD, List.getElem?_replicate]
  split <;> rfl

theorem status_resetWith (g : Config) : status (State.resetWith g) = 0 := by simp [status]

theorem faultInfo_eq_zero (hc : s.cause = 0) (hf : s.fcmd = 0) : faultInfo s = 0 := by simp [faultInfo, hc, hf]

theorem ctxStatus_resetWith (g : Config) (c : Nat) : ctxStatus (State.resetWith g) c = 0 := by
  simp [ctxStatus, getCtx_resetWith, Ctx.unbound, selBit]

theorem ctxLen_resetWith (g : Config) (c : Nat) : ctxLen (State.resetWith g) c = 0 := by
  simp [ctxLen, getCtx_resetWith, Ctx.unbound]

/-! ## The statements -/

theorem status_getLsbD (s : State) (b : Nat) : (status s).getLsbD b =
    if b = 0 then s.matrixValid else if b = 1 then s.lutValid else if b = 2 then s.faulted else false := by
  simp only [status, BitVec.getLsbD_or, regField_getLsbD, BitVec.getLsbD_ofBool]
  match b with
  | 0 => simp
  | 1 => simp
  | 2 => simp
  | n + 3 => simp

/-- Settles O45: each of the three fields is one bit wide. -/
theorem statusBits : Obligations.StatusBits := ⟨fun s b _ => status_getLsbD s b, status_resetWith⟩

/-- Settles O46: CAUSE and FCMD are fields apart. -/
theorem faultInfoFields : Obligations.FaultInfoFields := by
  intro s
  rw [csr_faultInfo]
  refine ⟨?_, ?_, ?_, fun hinv hf => ?_, fun g => faultInfo_eq_zero rfl rfl⟩
  · rw [faultInfo, BitVec.extractLsb'_or, regField_extract _ (by decide), regField_extract_below _ (by decide)]
    simp
  · rw [faultInfo, BitVec.extractLsb'_or, regField_extract_above _ (by decide), regField_extract_below _ (by decide)]
    simp
  · rw [faultInfo, BitVec.extractLsb'_or, regField_extract_above _ (by decide), regField_extract _ (by decide)]
    simp
  · obtain ⟨hc, hw⟩ := hinv.notFaulted hf
    exact faultInfo_eq_zero hc hw

theorem ctxStatus_of_some {c : Nat} {x : Ctx} (hc : c < s.cfg.NUM_CTX) (hx : s.ctxs[c]? = some x) :
    ctxStatus s c = regField (BitVec.ofBool x.bound) 0 ||| regField (BitVec.ofBool (selBit x.sel)) 1
      ||| regField (BitVec.ofNat 32 x.nx) 32 := by
  rw [ctxStatus, if_pos hc, getCtx_of_some hx]

theorem ctxLen_of_some {c : Nat} {x : Ctx} (hc : c < s.cfg.NUM_CTX) (hx : s.ctxs[c]? = some x) :
    ctxLen s c = x.len := by
  rw [ctxLen, if_pos hc, getCtx_of_some hx]

theorem selBit_eq_true (c : Compressor) : selBit c = true ↔ c = .lut := by cases c <;> simp [selBit]

/-- Settles O47: BOUND, SEL and NX are fields apart. -/
theorem contextRegisters : Obligations.ContextRegisters := by
  intro c hc
  refine ⟨fun s x hn hx => ?_, fun s hn => ?_, fun g => ?_⟩
  · rw [csr_ctxStatus hc, csr_ctxLen hc, ctxStatus_of_some hn hx]
    refine ⟨?_, ?_, ?_, fun hnx => ?_, ctxLen_of_some hn hx⟩
    · simp only [BitVec.getLsbD_or, regField_getLsbD, BitVec.getLsbD_ofBool]
      simp
    · rw [← selBit_eq_true]
      simp only [BitVec.getLsbD_or, regField_getLsbD, BitVec.getLsbD_ofBool]
      simp
    · simp only [BitVec.extractLsb'_or]
      rw [regField_extract_above _ (by decide), regField_extract_above _ (by decide),
        regField_extract_below _ (by decide)]
      simp
    · simp only [BitVec.extractLsb'_or]
      rw [regField_extract_above _ (by decide), regField_extract_above _ (by decide), regField_extract _ (by decide)]
      simpa using Nat.mod_eq_of_lt hnx
  · rw [csr_ctxStatus hc, csr_ctxLen hc, ctxStatus, ctxLen, if_neg (Nat.not_lt.2 hn), if_neg (Nat.not_lt.2 hn)]
    exact ⟨rfl, rfl⟩
  · rw [csr_ctxStatus hc, csr_ctxLen hc]
    exact ⟨ctxStatus_resetWith g c, ctxLen_resetWith g c⟩

theorem Did.cfg_eq {i : Instr} (hd : Did s i t) : t.cfg = s.cfg := by
  cases hd <;> rfl

theorem step_cfg_eq (h : step s = .next t) : t.cfg = s.cfg := by
  obtain ⟨-, rfl⟩ | ⟨rest, -, rfl⟩ | ⟨c, rest, -, ⟨i, -, hd⟩ | hd⟩ := step_did h
  · rfl
  · rfl
  · exact hd.cfg_eq
  · exact (hd .mtxGen).cfg_eq

/-- Settles O48: the registers of indices 2 to 8 read the configuration alone. -/
theorem constantRegisters : Obligations.ConstantRegisters := by
  refine ⟨fun s r hr h => csr_cfgRegister_toNat hr h, fun s t h => ?_, fun s k _ hk => ?_⟩
  · have hcfg := step_cfg_eq h
    exact ⟨hcfg, fun k h2 h8 => csr_eq_of_cfg_eq hcfg h2 h8⟩
  · have hzero : csr s k = 0 := csr_reserved hk
    refine ⟨hzero, fun hp => ?_⟩
    rw [exec_csrRd_of_empty k hp, hzero]
    rfl

/-- Indices from 0x09 up are context registers or reserved. -/
theorem csr_resetWith_of_le (g : Config) {k : Nat} (hk : 0x09 ≤ k) : csr (State.resetWith g) k = 0 := by
  by_cases hstatus : 0x10 ≤ k ∧ k < 0x20
  · obtain ⟨c, rfl⟩ := Nat.exists_eq_add_of_le hstatus.1
    rw [csr_ctxStatus (by omega), ctxStatus_resetWith]
  by_cases hlen : 0x20 ≤ k ∧ k < 0x30
  · obtain ⟨c, rfl⟩ := Nat.exists_eq_add_of_le hlen.1
    rw [csr_ctxLen (by omega), ctxLen_resetWith]
  · exact csr_reserved (by omega)

/-- Settles O11: the fields are those of `State.resetWith`, and each register reads them. -/
theorem resetValues : Obligations.ResetValues := by
  intro g
  refine ⟨rfl, rfl, rfl, rfl, rfl, by simp, fun x hx => ?_, status_resetWith g, faultInfo_eq_zero rfl rfl,
    fun k hk => csr_resetWith_of_le g hk, fun r hr h => csr_cfgRegister_toNat hr h⟩
  rw [List.eq_of_mem_replicate hx]
  exact ⟨rfl, rfl, rfl, rfl, rfl, rfl⟩

end Sys2Proof.Machine

/-! # Proofs of 20_memory.md: what the result port receives

The compression commands and CSR.RD answer through `perform`, so each answer is the branch of `perform` its premises
select. -/

namespace Sys2Proof.Machine

variable {s : State} {effect : Result}

/-- A compression command's checks pass: its compressor is valid and the payload has the length it asks for. -/
theorem perform_valid_payload {valid : Bool} {k : Cause} {n : Nat} (hf : s.faulted = false) (hv : valid = true)
    (hp : s.cmd.pay.length = n) : perform s [(!valid, k), checkPayload s n] effect = effect :=
  perform_passes hf (firstFailure_none.2 (by simp [checkPayload, hv, hp]))

/-- Settles O28: both checks of each command pass, and the effect emits. -/
theorem cmpCommandsComplete : Obligations.CmpCommandsComplete :=
  fun _ hf hp => ⟨fun hm => perform_valid_payload hf hm hp, fun hl => perform_valid_payload hf hl hp⟩

theorem firstFailure_checkPayload {n : Nat} (hp : s.cmd.pay.length ≠ n) :
    firstFailure [checkPayload s n] = some .precondition := by simp [firstFailure, checkPayload, hp]

/-- Settles O44: an empty payload is read whatever FAULTED is; any other fails the payload check or is discarded. -/
theorem csrRdCompletes : Obligations.CsrRdCompletes := by
  refine fun s k => ⟨exec_csrRd_of_empty k, fun hp hf => ?_, fun hp hf => ?_⟩
  · rw [exec_csrRd_of_nonempty k hp, perform_fails hf (firstFailure_checkPayload (mt List.length_eq_zero_iff.1 hp))]
    rfl
  · rw [exec_csrRd_of_nonempty k hp, perform_faulted hf]

end Sys2Proof.Machine

/-! # Proofs of 30_encoding.md: decoder, encoder and opcode map

Words are compared as numbers. In each format a word is its opcode plus its fields at their places, so decoding a word
of the encoder reads back the fields, and a word whose must-be-zero fields are zero is the word of what it decodes to. -/

namespace Sys2Proof

variable {w : CmdWord}

/-! ## The fields of an encoded word (R81 to R84) -/

section Fields

variable {o : BitVec 8} {c n k : Nat}

theorem encodeZ_fields : (encodeZ o).toNat % 256 = o.toNat ∧ (encodeZ o).toNat / 2 ^ 8 = 0 := by
  have := o.isLt
  rw [encodeZ_toNat]
  omega

theorem encodeC_fields (hc : c < 16) :
    (encodeC o c).toNat % 256 = o.toNat ∧ (encodeC o c).toNat / 2 ^ 12 = 0 ∧
      (encodeC o c).toNat / 2 ^ 8 % 2 ^ 4 = c := by
  have := o.isLt
  rw [encodeC_toNat]
  omega

theorem encodeU_fields (hc : c < 16) (hn : n < 65536) :
    (encodeU o c n).toNat % 256 = o.toNat ∧ (encodeU o c n).toNat / 2 ^ 12 % 2 ^ 4 = 0 ∧
      (encodeU o c n).toNat / 2 ^ 8 % 2 ^ 4 = c ∧ (encodeU o c n).toNat / 2 ^ 16 = n := by
  have := o.isLt
  rw [encodeU_toNat]
  omega

theorem encodeR_fields (hk : k < 256) :
    (encodeR o k).toNat % 256 = o.toNat ∧
      ((encodeR o k).toNat / 2 ^ 8 % 2 ^ 8 = 0 ∧ (encodeR o k).toNat / 2 ^ 24 = 0) ∧
      (encodeR o k).toNat / 2 ^ 16 % 2 ^ 8 = k := by
  have := o.isLt
  rw [encodeR_toNat]
  omega

/-! ## A word put together again from its fields -/

theorem encodeZ_of_fields (ho : w.toNat % 256 = o.toNat) (hz : w.toNat / 2 ^ 8 = 0) : encodeZ o = w :=
  word_ext (by rw [encodeZ_toNat]; omega)

theorem encodeC_of_fields (ho : w.toNat % 256 = o.toNat) (hz : w.toNat / 2 ^ 12 = 0) :
    encodeC o (w.toNat / 2 ^ 8 % 2 ^ 4) = w :=
  word_ext (by rw [encodeC_toNat]; omega)

theorem encodeU_of_fields (ho : w.toNat % 256 = o.toNat) (hz : w.toNat / 2 ^ 12 % 2 ^ 4 = 0) :
    encodeU o (w.toNat / 2 ^ 8 % 2 ^ 4) (w.toNat / 2 ^ 16) = w := by
  have := w.isLt
  exact word_ext (by rw [encodeU_toNat]; omega)

theorem encodeR_of_fields (ho : w.toNat % 256 = o.toNat)
    (hz : w.toNat / 2 ^ 8 % 2 ^ 8 = 0 ∧ w.toNat / 2 ^ 24 = 0) : encodeR o (w.toNat / 2 ^ 16 % 2 ^ 8) = w :=
  word_ext (by rw [encodeR_toNat]; omega)

end Fields

/-! ## Decode of encode, and encode of decode (R80 to R86) -/

theorem ifZero_of {p : Prop} [Decidable p] (h : p) (i : Instr) : ifZero w (decide p) i = .command i :=
  if_pos (decide_eq_true h)

theorem decode_encode {i : Instr} (h : i.wellFormed = true) : decode (encode i) = .command i := by
  cases i with
  | mtxGen => exact (decode_ofMtxGen encodeZ_fields.1).trans (ifZero_of encodeZ_fields.2 _)
  | lutDerive => exact (decode_ofLutDerive encodeZ_fields.1).trans (ifZero_of encodeZ_fields.2 _)
  | cmpRef => exact (decode_ofCmpRef encodeZ_fields.1).trans (ifZero_of encodeZ_fields.2 _)
  | cmpLut => exact (decode_ofCmpLut encodeZ_fields.1).trans (ifZero_of encodeZ_fields.2 _)
  | mdInitRef c =>
    obtain ⟨ho, hz, hc⟩ := encodeC_fields (o := 0x10) (of_decide_eq_true h)
    rw [encode, decode_ofMdInitRef ho, ifZero_of hz, hc]
  | mdInitLut c =>
    obtain ⟨ho, hz, hc⟩ := encodeC_fields (o := 0x11) (of_decide_eq_true h)
    rw [encode, decode_ofMdInitLut ho, ifZero_of hz, hc]
  | mdUpdate c n =>
    obtain ⟨hc, hn⟩ : ctxFits c ∧ lenFits n := of_decide_eq_true h
    obtain ⟨ho, hz, hc, hn⟩ := encodeU_fields (o := 0x12) hc hn
    rw [encode, decode_ofMdUpdate ho, ifZero_of hz, hc, hn]
  | mdFinal c =>
    obtain ⟨ho, hz, hc⟩ := encodeC_fields (o := 0x13) (of_decide_eq_true h)
    rw [encode, decode_ofMdFinal ho, ifZero_of hz, hc]
  | mdReset c =>
    obtain ⟨ho, hz, hc⟩ := encodeC_fields (o := 0x14) (of_decide_eq_true h)
    rw [encode, decode_ofMdReset ho, ifZero_of hz, hc]
  | csrRd k =>
    obtain ⟨ho, hz, hk⟩ := encodeR_fields (o := 0x20) (of_decide_eq_true h)
    rw [encode, decode_ofCsrRd ho, ifZero_of hz, hk]

/-- Settles O2: each format's fields are read back from the word. -/
theorem decodeEncodeAgree : Obligations.DecodeEncodeAgree := fun _ => decode_encode

/-- The fields of a word fit a command's operands. -/
theorem ctxField_fits (w : CmdWord) : ctxFits (w.toNat / 2 ^ 8 % 2 ^ 4) := Nat.mod_lt _ (by decide)

theorem lenField_fits (w : CmdWord) : lenFits (w.toNat / 2 ^ 16) := by
  have := w.isLt
  rw [lenFits]
  omega

theorem idxField_fits (w : CmdWord) : idxFits (w.toNat / 2 ^ 16 % 2 ^ 8) := Nat.mod_lt _ (by decide)

/-- What `ifZero` answers is the word's command when its fields fit and put the word together again. -/
theorem encode_of_ifZero {p : Prop} [Decidable p] {i j : Instr} (h : ifZero w (decide p) i = .command j)
    (hi : i.wellFormed = true) (he : p → encode i = w) : j.wellFormed = true ∧ encode j = w := by
  obtain ⟨hz, rfl⟩ := ifZero_command h
  exact ⟨hi, he (of_decide_eq_true hz)⟩

theorem encode_decode {i : Instr} (h : decode w = .command i) : i.wellFormed = true ∧ encode i = w := by
  have hctx : decide (ctxFits (w.toNat / 2 ^ 8 % 2 ^ 4)) = true := decide_eq_true (ctxField_fits w)
  rcases opcode_cases (w.toNat % 256) with ho | ho | ho | ho | ho | ho | ho | ho | ho | ho | ho
  · exact encode_of_ifZero ((decode_ofMtxGen ho).symm.trans h) rfl (encodeZ_of_fields ho)
  · exact encode_of_ifZero ((decode_ofLutDerive ho).symm.trans h) rfl (encodeZ_of_fields ho)
  · exact encode_of_ifZero ((decode_ofCmpRef ho).symm.trans h) rfl (encodeZ_of_fields ho)
  · exact encode_of_ifZero ((decode_ofCmpLut ho).symm.trans h) rfl (encodeZ_of_fields ho)
  · exact encode_of_ifZero ((decode_ofMdInitRef ho).symm.trans h) hctx (encodeC_of_fields ho)
  · exact encode_of_ifZero ((decode_ofMdInitLut ho).symm.trans h) hctx (encodeC_of_fields ho)
  · exact encode_of_ifZero ((decode_ofMdUpdate ho).symm.trans h) (decide_eq_true ⟨ctxField_fits w, lenField_fits w⟩)
      (encodeU_of_fields ho)
  · exact encode_of_ifZero ((decode_ofMdFinal ho).symm.trans h) hctx (encodeC_of_fields ho)
  · exact encode_of_ifZero ((decode_ofMdReset ho).symm.trans h) hctx (encodeC_of_fields ho)
  · exact encode_of_ifZero ((decode_ofCsrRd ho).symm.trans h) (decide_eq_true (idxField_fits w)) (encodeR_of_fields ho)
  · cases (decode_reserved ho).symm.trans h

/-- Settles O3: opcode by opcode, the word is made of the fields it decodes to. -/
theorem encodeDecodeAgree : Obligations.EncodeDecodeAgree := fun _ _ => encode_decode

/-! ## The opcode map (R86, R87) -/

theorem encode_selected {i : Instr} (h : i.wellFormed = true) :
    ∃ r ∈ opcodeMap, r.mnemonic = i.mnemonic ∧ r.selects (encode i) = true := by
  cases i with
  | mtxGen => exact Laws.EncodesRow.mtxGen h
  | lutDerive => exact Laws.EncodesRow.lutDerive h
  | cmpRef => exact Laws.EncodesRow.cmpRef h
  | cmpLut => exact Laws.EncodesRow.cmpLut h
  | mdInitRef c => exact Laws.EncodesRow.mdInitRef c h
  | mdInitLut c => exact Laws.EncodesRow.mdInitLut c h
  | mdUpdate c n => exact Laws.EncodesRow.mdUpdate c n h
  | mdFinal c => exact Laws.EncodesRow.mdFinal c h
  | mdReset c => exact Laws.EncodesRow.mdReset c h
  | csrRd k => exact Laws.EncodesRow.csrRd k h

/-- Every row's mask keeps the whole opcode, so a row selects words of its own opcode only. -/
theorem opcOf_of_selects {r : OpRow} (hr : r ∈ opcodeMap) (h : r.selects w = true) : opcOf w = opcOf r.pattern := by
  have hmask : ∀ r ∈ opcodeMap, opcOf r.mask = BitVec.allOnes 8 := by decide
  have hsel : w &&& r.mask = r.pattern := eq_of_beq h
  calc opcOf w = opcOf w &&& opcOf r.mask := by rw [hmask r hr, BitVec.and_allOnes]
    _ = opcOf (w &&& r.mask) := BitVec.extractLsb'_and.symm
    _ = opcOf r.pattern := by rw [hsel]

/-- The rows have different opcodes, so at most one selects a word. -/
theorem row_unique {r r' : OpRow} (hr : r ∈ opcodeMap) (hr' : r' ∈ opcodeMap) (h : r.selects w = true)
    (h' : r'.selects w = true) : r' = r := by
  have hinj : ∀ r ∈ opcodeMap, ∀ r' ∈ opcodeMap, opcOf r.pattern = opcOf r'.pattern → r' = r := by decide
  exact hinj r hr r' hr' ((opcOf_of_selects hr h).symm.trans (opcOf_of_selects hr' h'))

theorem opcodeMap_nodup : opcodeMap.Nodup := by decide

theorem filter_selects_eq {r : OpRow} (hr : r ∈ opcodeMap) (h : r.selects w = true) :
    opcodeMap.filter (fun r => r.selects w) = [r] := by
  have hiff : ∀ r' ∈ opcodeMap, r'.selects w = decide (r' = r) := fun r' hr' => by
    rw [Bool.eq_iff_iff, decide_eq_true_iff]
    exact ⟨row_unique hr hr' h, fun e => e ▸ h⟩
  rw [List.filter_congr hiff, List.filter_eq, List.count_eq_one_of_mem opcodeMap_nodup hr, List.replicate_one]

/-! ### A word a row selects is a command

By the row's mask, what the row asks of a word is its opcode and its zero fields. -/

section Rows

variable {name : String} {p : CmdWord}

theorem fields_of_selectsZ (h : OpRow.selects ⟨name, p, 0xFFFFFFFF⟩ w = true) (hp : p.toNat < 256) :
    w.toNat % 256 = p.toNat ∧ w.toNat / 2 ^ 8 = 0 := by
  rw [selects_eq, decide_eq_true_iff] at h
  have hn : w.toNat = p.toNat := (and_maskZ w.isLt).symm.trans h
  omega

theorem fields_of_selectsC (h : OpRow.selects ⟨name, p, 0xFFFFF0FF⟩ w = true) (hp : p.toNat < 256) :
    w.toNat % 256 = p.toNat ∧ w.toNat / 2 ^ 12 = 0 := by
  rw [selects_eq, decide_eq_true_iff] at h
  have hn : w.toNat % 256 + w.toNat / 4096 * 4096 = p.toNat := (and_maskC w.isLt).symm.trans h
  omega

theorem fields_of_selectsU (h : OpRow.selects ⟨name, p, 0x0000F0FF⟩ w = true) (hp : p.toNat < 256) :
    w.toNat % 256 = p.toNat ∧ w.toNat / 2 ^ 12 % 2 ^ 4 = 0 := by
  rw [selects_eq, decide_eq_true_iff] at h
  have hn : w.toNat % 256 + w.toNat / 4096 % 16 * 4096 = p.toNat := (and_maskU w.isLt).symm.trans h
  omega

theorem fields_of_selectsR (h : OpRow.selects ⟨name, p, 0xFF00FFFF⟩ w = true) (hp : p.toNat < 256) :
    w.toNat % 256 = p.toNat ∧ w.toNat / 2 ^ 8 % 2 ^ 8 = 0 ∧ w.toNat / 2 ^ 24 = 0 := by
  rw [selects_eq, decide_eq_true_iff] at h
  have hn : w.toNat % 65536 + w.toNat / 16777216 * 16777216 = p.toNat := (and_maskR w.isLt).symm.trans h
  omega

end Rows

theorem decode_of_selects {r : OpRow} (hr : r ∈ opcodeMap) (h : r.selects w = true) : ∃ i, decode w = .command i := by
  simp only [opcodeMap, List.mem_cons, List.not_mem_nil, or_false] at hr
  rcases hr with rfl | rfl | rfl | rfl | rfl | rfl | rfl | rfl | rfl | rfl
  · obtain ⟨ho, hz⟩ := fields_of_selectsZ h (by decide)
    exact ⟨_, (decode_ofMtxGen ho).trans (ifZero_of hz _)⟩
  · obtain ⟨ho, hz⟩ := fields_of_selectsZ h (by decide)
    exact ⟨_, (decode_ofLutDerive ho).trans (ifZero_of hz _)⟩
  · obtain ⟨ho, hz⟩ := fields_of_selectsZ h (by decide)
    exact ⟨_, (decode_ofCmpRef ho).trans (ifZero_of hz _)⟩
  · obtain ⟨ho, hz⟩ := fields_of_selectsZ h (by decide)
    exact ⟨_, (decode_ofCmpLut ho).trans (ifZero_of hz _)⟩
  · obtain ⟨ho, hz⟩ := fields_of_selectsC h (by decide)
    exact ⟨_, (decode_ofMdInitRef ho).trans (ifZero_of hz _)⟩
  · obtain ⟨ho, hz⟩ := fields_of_selectsC h (by decide)
    exact ⟨_, (decode_ofMdInitLut ho).trans (ifZero_of hz _)⟩
  · obtain ⟨ho, hz⟩ := fields_of_selectsU h (by decide)
    exact ⟨_, (decode_ofMdUpdate ho).trans (ifZero_of hz _)⟩
  · obtain ⟨ho, hz⟩ := fields_of_selectsC h (by decide)
    exact ⟨_, (decode_ofMdFinal ho).trans (ifZero_of hz _)⟩
  · obtain ⟨ho, hz⟩ := fields_of_selectsC h (by decide)
    exact ⟨_, (decode_ofMdReset ho).trans (ifZero_of hz _)⟩
  · obtain ⟨ho, hz⟩ := fields_of_selectsR h (by decide)
    exact ⟨_, (decode_ofCsrRd ho).trans (ifZero_of hz _)⟩

/-! ### The fields of a command's word -/

theorem ctxField_of_encode {i : Instr} {c : Nat} (h : i.wellFormed = true) (hc : Machine.ctxNamed i = some c) :
    (encode i).toNat / 2 ^ 8 % 2 ^ 4 = c := by
  cases i with
  | mdInitRef | mdInitLut | mdFinal | mdReset =>
    cases hc
    obtain ⟨-, -, hfield⟩ := encodeC_fields (of_decide_eq_true h)
    exact hfield
  | mdUpdate _ n =>
    cases hc
    obtain ⟨hc, hn⟩ : ctxFits c ∧ lenFits n := of_decide_eq_true h
    obtain ⟨-, -, hfield, -⟩ := encodeU_fields hc hn
    exact hfield
  | _ => cases hc

theorem lenField_of_encode {c n : Nat} (h : (Instr.mdUpdate c n).wellFormed = true) :
    (encode (.mdUpdate c n)).toNat / 2 ^ 16 = n := by
  obtain ⟨hc, hn⟩ : ctxFits c ∧ lenFits n := of_decide_eq_true h
  obtain ⟨-, -, -, hfield⟩ := encodeU_fields hc hn
  exact hfield

theorem idxField_of_encode {k : Nat} (h : (Instr.csrRd k).wellFormed = true) :
    (encode (.csrRd k)).toNat / 2 ^ 16 % 2 ^ 8 = k := by
  obtain ⟨-, -, hfield⟩ := encodeR_fields (of_decide_eq_true h)
  exact hfield

/-- Settles O4: a word that decodes is its command's word, which the command's row alone selects; a word that a row
selects decodes. -/
theorem decodeFollowsOpcodeMap : Obligations.DecodeFollowsOpcodeMap := by
  refine fun w => ⟨fun i hd => ?_, fun why hd r hr => ?_⟩
  · obtain ⟨hwf, rfl⟩ := encode_decode hd
    obtain ⟨r, hr, hname, hsel⟩ := encode_selected hwf
    refine ⟨⟨r, filter_selects_eq hr hsel, hname⟩, fun c hc => (ctxField_of_encode hwf hc).symm, ?_, ?_⟩
    · rintro c n rfl
      exact (lenField_of_encode hwf).symm
    · rintro k rfl
      exact (idxField_of_encode hwf).symm
  · refine Bool.eq_false_of_not_eq_true fun hsel => ?_
    obtain ⟨i, hi⟩ := decode_of_selects hr hsel
    cases hd.symm.trans hi

end Sys2Proof

namespace Sys2Proof.Machine

/-! ## Illegal words (R88) -/

/-- Settles O8: the one check of an illegal word fails, so `perform` faults, or discards while FAULTED = 1. -/
theorem illegalWordStep : Obligations.IllegalWordStep := by
  refine fun s c rest why ha hs hd => ⟨fun hf => ?_, fun hf => ?_⟩
  · exact (step_of_illegal ha hs hd).trans (perform_fails (s := takeCommand s c rest) (k := .illegalCommand) hf rfl)
  · exact (step_of_illegal ha hs hd).trans (perform_faulted (s := takeCommand s c rest) hf)

end Sys2Proof.Machine

/-! # The digest of a message (42_digest.md)

A context that has absorbed a message carries it (`Carries`): the chain over its whole blocks and its tail. Absorbing
more bytes carries the longer message, so pieces and padding are one stream, and the padded stream is whole blocks. -/

namespace Sys2Proof.Machine

section Stream

variable {B : Nat} {f : List Byte → List Word} {h : List Word} {m : List Byte} {x : Ctx}

/-- Absorbing goes on with the stream a context carries. -/
theorem Carries.absorb (hB : 0 < B) (hx : Carries B f h m x) (p : List Byte) :
    Carries B f h (m ++ p) (absorb B f x p) := by
  obtain ⟨hcv, hnx, hcarried, hbuf⟩ := hx
  have hwhole : m.length / B * B ≤ m.length := Nat.div_mul_le_self _ _
  obtain ⟨c, -⟩ := absorb_spec (f := f) hB (hnx ▸ Nat.mod_lt _ hB) hbuf p
  have hrest : x.buf.take x.nx ++ p = (m ++ p).drop (m.length / B * B) := by
    rw [hcarried, List.drop_append_of_le_length hwhole]
  have hlen : (m ++ p).length = (x.buf.take x.nx ++ p).length + m.length / B * B := by
    rw [hrest, List.length_drop, List.length_append]
    omega
  have hdiv : (m ++ p).length / B = m.length / B + (x.buf.take x.nx ++ p).length / B := by
    rw [hlen, Nat.add_mul_div_right _ _ hB, Nat.add_comm]
  refine ⟨?_, ?_, ?_, c.bufLen⟩
  · rw [c.cv, hdiv, chain_add, chain_append _ _ _ _ hwhole, ← hcv, hrest]
  · rw [c.nx, hlen, Nat.add_mul_mod_self_right]
  · rw [c.carried, hdiv, hrest, List.drop_drop, Nat.add_mul]

/-! ## Padding (R149 to R151) -/

theorem sixteen_le_B_of_admitted {g : Config} (h : g.Admitted) : 16 ≤ g.B := by
  obtain ⟨-, hcf, hp, -⟩ := h
  exact Config.sixteen_le_B (Nat.one_le_of_lt hcf) hp

theorem one_le_padLen (hB : 16 ≤ B) (L : Nat) : 1 ≤ padLen B L := by
  have := Nat.mod_lt L (show 0 < B by omega)
  simp only [padLen]
  split <;> omega

/-- The padding brings the length to a multiple of the block size, the 8 bytes of the length field included. -/
theorem padLen_fills (hB : 16 ≤ B) (L : Nat) : B ∣ L + padLen B L + 8 := by
  have hmod := Nat.mod_lt L (show 0 < B by omega)
  have hdm := Nat.div_add_mod L B
  simp only [padLen]
  split
  · exact ⟨L / B + 1, by rw [Nat.mul_add]; omega⟩
  · exact ⟨L / B + 2, by rw [Nat.mul_add]; omega⟩

theorem padOf_eq (B : Nat) {L : Nat} (hL : L < 2 ^ 64) :
    padOf B L = padBytes B (BitVec.ofNat 64 L) ++ lengthField (BitVec.ofNat 64 L) := by
  have hbits : BitVec.ofNat 64 (8 * L) = BitVec.ofNat 64 L * 8 := by
    rw [Nat.mul_comm, BitVec.ofNat_mul]
    rfl
  rw [padOf, padBytes, lengthField, hbits, BitVec.toNat_ofNat, Nat.mod_eq_of_lt hL, List.cons_append]

theorem length_padOf (hB : 16 ≤ B) (L : Nat) : (padOf B L).length = padLen B L + 8 := by
  have := one_le_padLen hB L
  simp [padOf]
  omega

/-- Finalize of a context that carries a message and counts its length: the chain over the padded message (R161). -/
theorem finalize_of_carries (hB : 16 ≤ B) (hx : Carries B f h m x) (hm : m.length < 2 ^ 64)
    (hlen : x.len = BitVec.ofNat 64 m.length) :
    finalize B f x =
      some (ser (chain B f h (m ++ padOf B m.length) ((m ++ padOf B m.length).length / B))) := by
  have hB0 : 0 < B := by omega
  have hpad : Carries B f h (m ++ padOf B m.length) (padded B f x) := by
    rw [padOf_eq B hm, ← List.append_assoc, ← hlen]
    exact (hx.absorb hB0 _).absorb hB0 _
  have hnx : (padded B f x).nx = 0 := by
    rw [hpad.nx, List.length_append, length_padOf hB, ← Nat.add_assoc]
    exact Nat.mod_eq_zero_of_dvd (padLen_fills hB _)
  rw [finalize, if_pos hnx, hpad.cv]

end Stream

/-! ## A context that hashes a message -/

/-- A bound context over the compressor `sel` that has absorbed the message `m` since its construction. -/
structure Absorbed (g : Config) (f : List Byte → List Word) (sel : Compressor) (m : List Byte) (x : Ctx) : Prop where
  bound : x.bound = true
  sel : x.sel = sel
  len : x.len = BitVec.ofNat 64 m.length
  carries : Carries g.B f (List.replicate g.N 0) m x

section Absorbed

variable {g : Config} {f : List Byte → List Word} {sel : Compressor} {m : List Byte} {x : Ctx}

theorem absorbed_zeroed (g : Config) (f : List Byte → List Word) (sel : Compressor) :
    Absorbed g f sel [] (Ctx.zeroed g true sel) where
  bound := rfl
  sel := rfl
  len := rfl
  carries := ⟨by simp [chain], by simp, by simp, by simp⟩

theorem Absorbed.absorb (hB : 0 < g.B) (hx : Absorbed g f sel m x) (p : List Byte) :
    Absorbed g f sel (m ++ p) (absorb g.B f x p) := by
  have hc := hx.carries
  obtain ⟨-, hbound, hsel, hlen⟩ := absorb_spec (f := f) hB (hc.nx ▸ Nat.mod_lt _ hB) hc.bufLen p
  exact ⟨hbound.trans hx.bound, hsel.trans hx.sel,
    by rw [hlen, hx.len, List.length_append, BitVec.ofNat_add], hc.absorb hB p⟩

theorem Absorbed.finalize_eq (hB : 16 ≤ g.B) (hx : Absorbed g f sel m x) (hm : m.length < 2 ^ 64) :
    finalize g.B f x = some (chainDigest g f m) :=
  finalize_of_carries hB hx.carries hm hx.len

end Absorbed

/-! ## What the MD commands answer when their checks pass (R145 to R147, R152) -/

section Md

variable {s : State} {c : Nat} {x : Ctx} {effect : Result}

theorem perform_init {valid : Bool} {k : Cause} (hf : s.faulted = false) (hc : c < s.cfg.NUM_CTX) (hv : valid = true)
    (hp : s.cmd.pay = []) : perform s [checkCtxRange s c, (!valid, k), checkPayload s 0] effect = effect :=
  perform_passes hf (firstFailure_none.2 (by simp [checkCtxRange, checkPayload, hc, hv, hp]))

theorem exec_mdInitRef_of_ready (hf : s.faulted = false) (hc : c < s.cfg.NUM_CTX) (hm : s.matrixValid = true)
    (hp : s.cmd.pay = []) : exec (.mdInitRef c) s = .next (setCtx s c (Ctx.zeroed s.cfg true .ref)) :=
  perform_init hf hc hm hp

theorem exec_mdInitLut_of_ready (hf : s.faulted = false) (hc : c < s.cfg.NUM_CTX) (hl : s.lutValid = true)
    (hp : s.cmd.pay = []) : exec (.mdInitLut c) s = .next (setCtx s c (Ctx.zeroed s.cfg true .lut)) :=
  perform_init hf hc hl hp

theorem perform_bound {n : Nat} (hf : s.faulted = false) (hc : c < s.cfg.NUM_CTX) (hx : s.ctxs[c]? = some x)
    (hb : x.bound = true) (hp : s.cmd.pay.length = n) :
    perform s [checkCtxRange s c, checkCtxBound s c, checkPayload s n] effect = effect :=
  perform_passes hf (firstFailure_none.2
    (by simp [checkCtxRange, checkCtxBound, checkPayload, getCtx_of_some hx, hc, hb, hp]))

theorem exec_mdUpdate_of_bound {n : Nat} (hf : s.faulted = false) (hc : c < s.cfg.NUM_CTX) (hx : s.ctxs[c]? = some x)
    (hb : x.bound = true) (hp : s.cmd.pay.length = n) :
    exec (.mdUpdate c n) s = .next (setCtx s c (absorb s.cfg.B (compressOf s x.sel) x s.cmd.pay)) := by
  rw [← getCtx_of_some hx]
  exact perform_bound hf hc hx hb hp

theorem exec_mdFinal_of_bound (hf : s.faulted = false) (hc : c < s.cfg.NUM_CTX) (hx : s.ctxs[c]? = some x)
    (hb : x.bound = true) (hp : s.cmd.pay = []) :
    exec (.mdFinal c) s = emitDigest s (finalize s.cfg.B (compressOf s x.sel) x) := by
  rw [← getCtx_of_some hx]
  exact perform_bound hf hc hx hb (by rw [hp]; rfl)

end Md

/-! # Proofs of 30_encoding.md: the one-shot hash (R93)

Between its moves the pseudo-command leaves the block as it was, but for the ports and its context, which has absorbed
the pieces so far. -/

theorem step_moveOf {s : State} {i : Instr} {pay : List Byte} {rest : List HostMove} (ha : s.cfg.Admitted)
    (hs : s.stream = moveOf i pay :: rest) (hi : i.wellFormed = true) :
    step s = exec i (takeCommand s ⟨encode i, pay⟩ rest) :=
  step_of_command ha hs (decode_encode hi)

/-- The block `s` in the middle of a pseudo-command on context `c`: the context holds `x`, the pair last taken is `cmd`
and the host's coming moves are `moves`. -/
def hashing (s : State) (c : Nat) (x : Ctx) (cmd : Command) (moves : List HostMove) : State :=
  takeCommand (setCtx s c x) cmd moves

section Hash

variable {s : State} {c : Nat} (hinv : s.Inv) (hf : s.faulted = false) (hc : c < s.cfg.NUM_CTX)

theorem hashing_setCtx (x y : Ctx) (cmd : Command) (moves : List HostMove) :
    setCtx (hashing s c x cmd moves) c y = hashing s c y cmd moves := by
  simp [hashing, setCtx, takeCommand]

include hinv in
theorem step_hashing {i : Instr} (hi : i.wellFormed = true) (x : Ctx) (cmd : Command) (pay : List Byte)
    (rest : List HostMove) : step (hashing s c x cmd (moveOf i pay :: rest)) =
      exec i (hashing s c x ⟨encode i, pay⟩ rest) :=
  step_moveOf (s := hashing s c x cmd (moveOf i pay :: rest)) hinv.admitted rfl hi

include hinv hc in
theorem hashing_ctx (x : Ctx) (cmd : Command) (moves : List HostMove) :
    (hashing s c x cmd moves).ctxs[c]? = some x :=
  List.getElem?_set_self (hinv.ctxCount ▸ hc)

include hinv hc in
theorem ctxFits_of_range : ctxFits c := by
  obtain ⟨-, -, -, -, hnum⟩ := hinv.admitted
  exact Nat.lt_of_lt_of_le hc hnum

include hinv hf hc in
/-- One MD.UPDATE of the pseudo-command absorbs its piece. -/
theorem step_update {x : Ctx} (hb : x.bound = true) (cmd : Command) {p : List Byte} (hp : lenFits p.length)
    (rest : List HostMove) :
    step (hashing s c x cmd (moveOf (.mdUpdate c p.length) p :: rest)) =
      .next (hashing s c (absorb s.cfg.B (compressOf s x.sel) x p) ⟨encode (.mdUpdate c p.length), p⟩ rest) := by
  have hwf : (Instr.mdUpdate c p.length).wellFormed = true := decide_eq_true ⟨ctxFits_of_range hinv hc, hp⟩
  rw [step_hashing hinv hwf, exec_mdUpdate_of_bound (s := hashing s c x _ rest) (n := p.length) hf hc
    (hashing_ctx hinv hc x _ _) hb rfl, hashing_setCtx]
  rfl

include hinv hf hc in
/-- MD.WRITE absorbs the message piece by piece. -/
theorem run_writePieces {sel : Compressor} (rest : List HostMove) (k : Nat) : ∀ {m p : List Byte} {x : Ctx}
    (cmd : Command), m.length ≤ k → Absorbed s.cfg (compressOf s sel) sel p x →
    ∃ y cmd', core.run (writePieces c k m).length (hashing s c x cmd (writePieces c k m ++ rest)) =
      .next (hashing s c y cmd' rest) ∧ Absorbed s.cfg (compressOf s sel) sel (p ++ m) y := by
  induction k with
  | zero =>
    intro m p x cmd hm hx
    obtain rfl : m = [] := List.eq_nil_of_length_eq_zero (Nat.le_zero.1 hm)
    exact ⟨x, cmd, rfl, by rwa [List.append_nil]⟩
  | succ k ih =>
    intro m p x cmd hm hx
    by_cases hnil : m = []
    · subst hnil
      exact ⟨x, cmd, rfl, by rwa [List.append_nil]⟩
    · have hpos := List.length_pos_of_ne_nil hnil
      have hlen : (m.take pieceMax).length = min m.length pieceMax := by rw [List.length_take, Nat.min_comm]
      have hfits : lenFits (m.take pieceMax).length := by simp [pieceMax, lenFits]
      have hwrite : writePieces c (k + 1) m =
          moveOf (.mdUpdate c (m.take pieceMax).length) (m.take pieceMax) :: writePieces c k (m.drop pieceMax) := by
        rw [writePieces, if_neg hnil, hlen]
      have hstep := step_update hinv hf hc hx.bound cmd hfits (writePieces c k (m.drop pieceMax) ++ rest)
      have hx₁ := hx.absorb (B_pos_of_admitted hinv.admitted) (m.take pieceMax)
      obtain ⟨y, cmd', hrun, hy⟩ := ih (m := m.drop pieceMax) _ (by simp [pieceMax]; omega) hx₁
      rw [hx.sel] at hstep
      refine ⟨y, cmd', ?_, ?_⟩
      · rw [hwrite]
        exact (run_succ core hstep).trans hrun
      · rwa [List.append_assoc, List.take_append_drop] at hy

include hinv hf hc in
/-- MD.FINAL of the pseudo-command emits the chain digest. -/
theorem step_final {sel : Compressor} {m : List Byte} {x : Ctx} (hx : Absorbed s.cfg (compressOf s sel) sel m x)
    (hm : m.length < 2 ^ 64) (cmd : Command) (rest : List HostMove) :
    step (hashing s c x cmd (moveOf (.mdFinal c) [] :: rest)) =
      .next (emit (hashing s c x ⟨encode (.mdFinal c), []⟩ rest) (chainDigest s.cfg (compressOf s sel) m)) := by
  have hwf : (Instr.mdFinal c).wellFormed = true := decide_eq_true (ctxFits_of_range hinv hc)
  rw [step_hashing hinv hwf, exec_mdFinal_of_bound (s := hashing s c x _ rest) hf hc (hashing_ctx hinv hc x _ _)
    hx.bound rfl, hx.sel]
  exact congrArg (emitDigest _) (hx.finalize_eq (sixteen_le_B_of_admitted hinv.admitted) hm)

include hinv hf hc in
/-- Once its first move has constructed the context, the pseudo-command emits the chain digest. -/
theorem run_hash {sel : Compressor} {m : List Byte} {rest : List HostMove} {i : Instr} (hm : m.length < 2 ^ 64)
    (hs : s.stream = moveOf i [] :: (mdWrite c m ++ [moveOf (.mdFinal c) []]) ++ rest) (hi : i.wellFormed = true)
    (hinit : ∀ moves, exec i (takeCommand s ⟨encode i, []⟩ moves) =
      .next (hashing s c (Ctx.zeroed s.cfg true sel) ⟨encode i, []⟩ moves)) :
    ∃ t : State, core.run (moveOf i [] :: (mdWrite c m ++ [moveOf (.mdFinal c) []])).length s = .next t ∧
      t = { s with cmd := t.cmd, stream := rest, ctxs := t.ctxs,
                   result := s.result ++ chainDigest s.cfg (compressOf s sel) m } ∧
      ∀ d, d ≠ c → t.ctxs[d]? = s.ctxs[d]? := by
  have hs' : s.stream = moveOf i [] :: (mdWrite c m ++ moveOf (.mdFinal c) [] :: rest) := by simp [hs]
  have hfirst := (step_moveOf hinv.admitted hs' hi).trans (hinit _)
  obtain ⟨y, cmd, hwrite, hy⟩ := run_writePieces hinv hf hc (moveOf (.mdFinal c) [] :: rest) m.length
    ⟨encode i, []⟩ le_rfl (absorbed_zeroed s.cfg (compressOf s sel) sel)
  have hlast := step_final hinv hf hc hy hm cmd rest
  refine ⟨emit (hashing s c y ⟨encode (.mdFinal c), []⟩ rest) (chainDigest s.cfg (compressOf s sel) m), ?_, rfl,
    fun d hd => List.getElem?_set_ne hd.symm⟩
  calc core.run (moveOf i [] :: (mdWrite c m ++ [moveOf (.mdFinal c) []])).length s
      = core.run ((mdWrite c m).length + 1 + 1) s := by simp
    _ = core.run ((mdWrite c m).length + 1) (hashing s c (Ctx.zeroed s.cfg true sel) ⟨encode i, []⟩
          (mdWrite c m ++ moveOf (.mdFinal c) [] :: rest)) := run_succ core hfirst
    _ = core.run 1 (hashing s c y cmd (moveOf (.mdFinal c) [] :: rest)) := run_add core 1 _ hwrite
    _ = .next (emit (hashing s c y ⟨encode (.mdFinal c), []⟩ rest) (chainDigest s.cfg (compressOf s sel) m)) :=
        run_succ core hlast

end Hash

/-- Settles O43: MD.INIT constructs the context over its compressor; the rest of the moves is the same for both. -/
theorem oneShotHash : Obligations.OneShotHash := by
  intro s c m rest hinv hf hc hm
  have hctx := decide_eq_true (ctxFits_of_range hinv hc)
  refine ⟨fun hv hs => ?_, fun hv hs => ?_⟩
  · exact run_hash hinv hf hc (sel := .ref) hm hs hctx fun _ => exec_mdInitRef_of_ready hf hc hv rfl
  · exact run_hash hinv hf hc (sel := .lut) hm hs hctx fun _ => exec_mdInitLut_of_ready hf hc hv rfl

end Sys2Proof.Machine

/-! # Proofs of 40_matrix.md: the matrix fill and the table

The checks of both commands pass under the statements' premises, so each answer is its effect; what the effect writes is
read cell by cell. What else a command may do is read off `Did`. -/

namespace Sys2Proof.Machine

/-! ## What the cells hold (R61, R101, R105) -/

theorem slice_length {s : List Byte} {k n : Nat} (h : k + n ≤ s.length) : (slice s k n).length = n := by
  rw [slice, List.length_take, List.length_drop]
  omega

theorem slice_getD (s : List Byte) (k : Nat) {n j : Nat} (hj : j < n) :
    (slice s k n).getD j 0 = s.getD (k + j) 0 := by
  simp [slice, List.getD, hj]

/-- Eight bytes taken from a longer string, as a number: the sum of the string's own bytes at their places. -/
theorem toNat_fromLE64_slice {e : List Byte} {k : Nat} (h : k + 8 ≤ e.length) :
    (fromLE64 (slice e k 8)).toNat = ∑ j ∈ Finset.range 8, (e.getD (k + j) 0).toNat * 2 ^ (8 * j) := by
  rw [toNat_fromLE64_eq_sum (slice_length h)]
  exact Finset.sum_congr rfl fun j hj => by rw [slice_getD e k (Finset.mem_range.1 hj)]

theorem fillMatrix_row (e : List Byte) {g : Config} {i : Nat} (hi : i < g.N) :
    (fillMatrix g e)[i]? = some ((List.range g.M).map fun c => fromLE64 (slice e (8 * (i * g.M + c)) 8)) := by
  simp [fillMatrix, hi]

/-- The last byte of a cell lies inside the answer: row-major places of an `N`-by-`M` grid stay below `N·M`. -/
theorem cell_bytes_le {N M i c : Nat} (hi : i < N) (hc : c < M) : 8 * (i * M + c) + 8 ≤ 8 * N * M := by
  have hrows : (i + 1) * M ≤ N * M := Nat.mul_le_mul_right M hi
  rw [Nat.succ_mul] at hrows
  rw [Nat.mul_assoc]
  omega

/-- Settles O22: the derived cell is a sum over bit positions that adds a cell where the bit is set. -/
theorem derivedCells : Obligations.DerivedCells := by
  intro g a i j v hi hj hv
  have hbyte : (BitVec.ofNat 8 v).toNat = v := Nat.mod_eq_of_lt hv
  rw [entry_deriveTable hi hj hv, deriveCell, sumTo_bits, hbyte]

/-! ## What the two commands answer when their checks pass (R100, R102, R104) -/

section Answers

variable {s : State} {rest : List EntropyAnswer} (hf : s.faulted = false) (hp : s.cmd.pay = [])

include hf hp in
theorem exec_mtxGen_of_empty (hm : s.matrixValid = false) : exec .mtxGen s =
    entropyRead s s.cfg.entBytes fun e t => .next (setMatrix t (fillMatrix s.cfg e)) :=
  perform_passes hf (firstFailure_none.2 (by simp [checkMatrixEmpty, checkPayload, hm, hp]))

include hf hp in
theorem exec_lutDerive_of_valid (hm : s.matrixValid = true) :
    exec .lutDerive s = .next (setTable s (deriveTable s.cfg s.matrix)) :=
  perform_valid_payload hf hm (List.length_eq_zero_iff.2 hp)

theorem entropyRead_of_ok {e : List Byte} {n : Nat} (he : s.entropy = .ok e :: rest) (hl : e.length = n)
    (goOn : List Byte → State → Result) : entropyRead s n goOn = goOn e { s with entropy := rest } := by
  simp [entropyRead, he, hl]

theorem entropyRead_of_err (he : s.entropy = .err :: rest) (n : Nat) (goOn : List Byte → State → Result) :
    entropyRead s n goOn = .next (raiseFault { s with entropy := rest } .entropy) := by
  simp [entropyRead, he]

end Answers

/-- Settles O17: the request goes on with the answer, and each cell of the fill is 8 bytes inside it. -/
theorem mtxGenCompletes : Obligations.MtxGenCompletes := by
  intro s e rest hf hm hp he hl
  refine ⟨fillMatrix s.cfg e, (exec_mtxGen_of_empty hf hp hm).trans (entropyRead_of_ok he hl _),
    (fillMatrix_shaped s.cfg e).1, fun i hi => ⟨_, fillMatrix_row e hi, by simp, fun c hc => ?_⟩⟩
  exact ⟨_, by simp [hc], toNat_fromLE64_slice (hl ▸ cell_bytes_le hi hc)⟩

/-- Settles O18: the request answers with the entropy fault before anything is filled. -/
theorem mtxGenEntropyFailure : Obligations.MtxGenEntropyFailure :=
  fun _ _ hf hm hp he => (exec_mtxGen_of_empty hf hp hm).trans (entropyRead_of_err he _ _)

/-- Settles O20: both checks pass, and the effect is `setTable`. -/
theorem lutDeriveCompletes : Obligations.LutDeriveCompletes :=
  fun _ hf hm hp => exec_lutDerive_of_valid hf hp hm

/-- Settles O21: the invariant gives the table that is derived again. -/
theorem lutDeriveAgainChangesNothing : Obligations.LutDeriveAgainChangesNothing := by
  intro s hinv hf hl hp
  obtain ⟨hm, htable⟩ := hinv.tableDerived hl
  have hsame : setTable s (deriveTable s.cfg s.matrix) = s := by rw [setTable, ← htable, ← hl]
  rw [exec_lutDerive_of_valid hf hp hm, hsame]

/-! ## Frames (R100, R104) -/

/-- Settles O54: each command is discarded, faults, or writes its own grid; MTX.GEN's entropy fault writes no grid. -/
theorem matrixCommandsFrame : Obligations.MatrixCommandsFrame := by
  refine fun s t => ⟨fun h => ?_, fun h => ?_⟩
  · cases exec_did h with
    | discarded => exact ⟨rfl, fun _ => ⟨rfl, rfl⟩, fun hne => absurd rfl hne⟩
    | faulted _ k hf => exact ⟨rfl, fun heq => by simp [hf] at heq, fun _ => ⟨rfl, rfl⟩⟩
    | entropyFault rest hf => exact ⟨rfl, fun heq => by simp [hf] at heq, fun _ => ⟨rfl, rfl⟩⟩
    | filled => exact ⟨rfl, fun _ => ⟨rfl, rfl⟩, fun hne => absurd rfl hne⟩
  · cases exec_did h with
    | discarded => exact ⟨rfl, fun _ => ⟨rfl, rfl⟩, fun hne => absurd rfl hne⟩
    | faulted _ k hf => exact ⟨rfl, fun heq => by simp [hf] at heq, fun _ => ⟨rfl, rfl⟩⟩
    | derived => exact ⟨rfl, fun _ => ⟨rfl, rfl⟩, fun hne => absurd rfl hne⟩

end Sys2Proof.Machine

/-! # Proofs of 41_compress.md: the two compressors

Each output word is a sum over the message's bytes. A derived cell is the reference compressor's inner sum for its byte,
so both compressors add the same terms (R123). -/

namespace Sys2Proof.Machine

/-! ## The words as sums (R121, R122) -/

theorem refWord_eq_sum (g : Config) (a : Matrix) (m : List Byte) (i : Nat) :
    refWord g a m i = ∑ j ∈ Finset.range g.inBytes,
      ∑ b ∈ (Finset.range 8).filter (fun b => (m.getD j 0).toNat / 2 ^ (7 - b) % 2 = 1), cell a i (8 * j + b) := by
  rw [refWord, sumTo_eq_sum]
  exact Finset.sum_congr rfl fun j _ => sumTo_bits (m.getD j 0) fun b => cell a i (8 * j + b)

theorem lutWord_eq_sum (g : Config) (t : Table) (m : List Byte) (i : Nat) :
    lutWord g t m i = ∑ j ∈ Finset.range g.inBytes, entry t i j (m.getD j 0).toNat :=
  sumTo_eq_sum _ _

section Words

variable {g : Config} {i : Nat} (hi : i < g.N)

include hi

theorem compressRef_getElem? (a : Matrix) (m : List Byte) : (compressRef g a m)[i]? = some (refWord g a m i) := by
  simp [compressRef, hi]

theorem compressLut_getElem? (t : Table) (m : List Byte) : (compressLut g t m)[i]? = some (lutWord g t m i) := by
  simp [compressLut, hi]

/-- A table cell adds what the reference compressor adds for its byte (R105, R123). -/
theorem lutWord_deriveTable (a : Matrix) (m : List Byte) : lutWord g (deriveTable g a) m i = refWord g a m i := by
  rw [lutWord_eq_sum, refWord, sumTo_eq_sum]
  refine Finset.sum_congr rfl fun j hj => ?_
  rw [entry_deriveTable hi (Finset.mem_range.1 hj) (m.getD j 0).isLt, deriveCell, BitVec.ofNat_toNat, BitVec.setWidth_eq]

end Words

theorem compressLut_deriveTable (g : Config) (a : Matrix) (m : List Byte) :
    compressLut g (deriveTable g a) m = compressRef g a m :=
  List.map_congr_left fun _ hi => lutWord_deriveTable (List.mem_range.1 hi) a m

/-- Settles O24: word `i` is `refWord`, a sum over bytes of sums over set bits. -/
theorem refCompressorSums : Obligations.RefCompressorSums :=
  fun g a m => ⟨compressRef_length g a m, fun _ hi => by rw [compressRef_getElem? hi, refWord_eq_sum]⟩

/-- Settles O25: word `i` is `lutWord`, a sum over bytes. -/
theorem lutCompressorSums : Obligations.LutCompressorSums :=
  fun g t m => ⟨compressLut_length g t m, fun _ hi => by rw [compressLut_getElem? hi, lutWord_eq_sum]⟩

/-! ## The two commands (R127, R128) -/

/-- Settles O29: the invariant makes the table the derived one, so both commands emit the same compression. -/
theorem cmpCommandsAgree : Obligations.CmpCommandsAgree := by
  intro s hinv hf hl hp
  obtain ⟨hm, htable⟩ := hinv.tableDerived hl
  obtain ⟨href, hlut⟩ := cmpCommandsComplete s hf hp
  refine ⟨⟨_, hlut hl⟩, ?_⟩
  rw [hlut hl, href hm, htable, compressLut_deriveTable]

end Sys2Proof.Machine

/-! # Proofs of 42_digest.md: padding and the MD commands

Absorb adds to the carried count modulo `B`, so the padding leaves an empty buffer exactly when the context carries
`LEN mod B` bytes. The commands on a bound context take their effect, which `absorb_spec` and this fact read. -/

namespace Sys2Proof.Machine

/-! ## The pad length (R149, R150) -/

section Padding

variable {B L : Nat}

theorem padLen_of_lt (h : L % B < B - 8) : padLen B L = B - 8 - L % B := if_pos h

theorem padLen_of_le (h : B - 8 ≤ L % B) : padLen B L = 2 * B - 8 - L % B := if_neg (Nat.not_lt.2 h)

theorem padLen_le (B L : Nat) : padLen B L ≤ B := by
  by_cases h : L % B < B - 8
  · rw [padLen_of_lt h]; omega
  · rw [padLen_of_le (Nat.not_lt.1 h)]; omega

/-- Before the length field the padded message lacks 8 bytes of whole blocks. -/
theorem add_padLen_mod (hB : 16 ≤ B) (L : Nat) : (L + padLen B L) % B = B - 8 := by
  have h : L + padLen B L + 8 ≡ B - 8 + 8 [MOD B] := by
    rw [Nat.sub_add_cancel (by omega)]
    exact (Nat.modEq_zero_iff_dvd.2 (padLen_fills hB L)).trans (Nat.modEq_zero_iff_dvd.2 dvd_rfl).symm
  exact Nat.mod_eq_of_modEq (Nat.ModEq.add_right_cancel' 8 h) (by omega)

/-- A shorter count would differ from the pad length by less than a block, so not by a multiple of `B`. -/
theorem padLen_le_of_fills (hB : 16 ≤ B) {n : Nat} (hn : 1 ≤ n) (h : (L + n) % B = B - 8) : padLen B L ≤ n := by
  by_contra hlt
  have hmod : n ≡ padLen B L [MOD B] := Nat.ModEq.add_left_cancel' L (h.trans (add_padLen_mod hB L).symm)
  have hdvd : B ∣ padLen B L - n := (Nat.modEq_iff_dvd' (by omega)).1 hmod
  have := Nat.le_of_dvd (by omega) hdvd
  have := padLen_le B L
  omega

end Padding

/-- Settles O34: of the counts that fill up to the length field, only the least is at most a block. -/
theorem paddingFits : Obligations.PaddingFits := by
  refine fun B L hB => ⟨padLen_of_lt, padLen_of_le, one_le_padLen hB L, padLen_le B L, add_padLen_mod hB L,
    fun n => padLen_le_of_fills hB, ?_⟩
  rw [length_padOf hB, ← Nat.add_assoc]
  exact Nat.mod_eq_zero_of_dvd (padLen_fills hB L)

/-! ## The padding assertion (R151, R153) -/

section Assertion

variable {B : Nat} {f : List Byte → List Word} {x : Ctx} (hnx : x.nx < B) (hbuf : x.buf.length = B)

include hnx hbuf

theorem absorb_nx (m : List Byte) : (absorb B f x m).nx = (x.nx + m.length) % B := by
  obtain ⟨c, -⟩ := absorb_spec (f := f) (Nat.zero_lt_of_lt hnx) hnx hbuf m
  rw [c.nx, List.length_append, List.length_take_of_le (hbuf ▸ hnx.le)]

theorem padded_nx (hB : 16 ≤ B) : (padded B f x).nx = (x.nx + (padLen B x.len.toNat + 8)) % B := by
  obtain ⟨c, -⟩ := absorb_spec (f := f) (Nat.zero_lt_of_lt hnx) hnx hbuf (padBytes B x.len)
  rw [padded, absorb_nx (c.nx ▸ Nat.mod_lt _ (Nat.zero_lt_of_lt hnx)) c.bufLen, absorb_nx hnx hbuf, padBytes_length,
    lengthField_length, Nat.sub_add_cancel (one_le_padLen hB _), Nat.mod_add_mod, Nat.add_assoc]

/-- The assertion of R153 holds of the contexts that carry `LEN mod B` bytes, and of no others (log entry 11). -/
theorem padded_nx_eq_zero_iff (hB : 16 ≤ B) : (padded B f x).nx = 0 ↔ x.nx = x.len.toNat % B := by
  have hfill : x.len.toNat + (padLen B x.len.toNat + 8) ≡ 0 [MOD B] :=
    Nat.modEq_zero_iff_dvd.2 (Nat.add_assoc .. ▸ padLen_fills hB _)
  have hres : x.nx = x.len.toNat % B ↔ x.nx ≡ x.len.toNat [MOD B] := by rw [Nat.ModEq, Nat.mod_eq_of_lt hnx]
  rw [padded_nx hnx hbuf hB, hres]
  exact ⟨fun h => Nat.ModEq.add_right_cancel' _ (Nat.ModEq.trans (show _ ≡ 0 [MOD B] from h) hfill.symm),
    fun h => (h.add_right _).trans hfill⟩

end Assertion

/-! ## The MD commands (R147, R152, R156, R160) -/

section Answers

variable {s : State} {c : Nat} {x : Ctx}

theorem exec_mdReset_of_bound (hf : s.faulted = false) (hc : c < s.cfg.NUM_CTX) (hx : s.ctxs[c]? = some x)
    (hb : x.bound = true) (hp : s.cmd.pay = []) :
    exec (.mdReset c) s = .next (setCtx s c (Ctx.zeroed s.cfg x.bound x.sel)) := by
  rw [← getCtx_of_some hx]
  exact perform_bound hf hc hx hb (List.length_eq_zero_iff.2 hp)

theorem eq_zeroed {g : Config} (hcv : x.cv = List.replicate g.N 0) (hbuf : x.buf = List.replicate g.B 0)
    (hnx : x.nx = 0) (hlen : x.len = 0) : x = Ctx.zeroed g x.bound x.sel := by
  rw [Ctx.zeroed, ← hcv, ← hbuf, ← hnx, ← hlen]

end Answers

/-- Settles O31: the context described is the construct state of its compressor. -/
theorem mdInitCompletes : Obligations.MdInitCompletes := by
  intro s c x hf hc hp hb hcv hbuf hnx hlen
  have hx : x = Ctx.zeroed s.cfg true x.sel := hb ▸ eq_zeroed hcv hbuf hnx hlen
  refine ⟨fun hsel hm => ?_, fun hsel hl => ?_⟩
  · rw [hx, hsel]
    exact exec_mdInitRef_of_ready hf hc hm hp
  · rw [hx, hsel]
    exact exec_mdInitLut_of_ready hf hc hl hp

/-- Settles O32: the effect absorbs the payload, and `absorb_spec` says what the absorbed context is. -/
theorem mdUpdateCompletes : Obligations.MdUpdateCompletes := by
  rintro s c n x - hf hc hx hb ⟨-, hbuf, hnx⟩ hp
  obtain ⟨hy, hbound, hsel, hlen⟩ :=
    absorb_spec (f := compressOf s x.sel) (Nat.zero_lt_of_lt hnx) hnx hbuf s.cmd.pay
  have hstream : (x.buf.take x.nx ++ s.cmd.pay).length = x.nx + n := by
    rw [List.length_append, List.length_take_of_le (hbuf ▸ hnx.le), hp]
  obtain ⟨hcv, hynx, hcarried, hybuf⟩ := hy
  rw [hstream] at hcv hynx hcarried
  exact ⟨_, exec_mdUpdate_of_bound hf hc hx hb hp, hbound, hsel, hp ▸ hlen, hynx, hybuf, hcarried, hcv⟩

/-- Settles O36: the padding assertion holds, so the digest is emitted. -/
theorem mdFinalCompletes : Obligations.MdFinalCompletes := by
  intro s c x ha hf hc hx hb hshape hres hp
  have ⟨_, hbuf, hnx⟩ := hshape
  have hd : finalize s.cfg.B (compressOf s x.sel) x = some (ser (padded s.cfg.B (compressOf s x.sel) x).cv) :=
    if_pos ((padded_nx_eq_zero_iff hnx hbuf (sixteen_le_B_of_admitted ha)).2 hres)
  refine ⟨_, hd, finalize_length (compressOf_length s x.sel) hshape hd, ?_⟩
  rw [exec_mdFinal_of_bound hf hc hx hb hp, hd]
  rfl

/-- Settles O37: the padding assertion fails, so the effect is the fault. -/
theorem mdFinalPadAssertion : Obligations.MdFinalPadAssertion := by
  rintro s c x ha hf hc hx hb ⟨-, hbuf, hnx⟩ hres hp
  have hd : finalize s.cfg.B (compressOf s x.sel) x = none :=
    if_neg (mt (padded_nx_eq_zero_iff hnx hbuf (sixteen_le_B_of_admitted ha)).1 hres)
  rw [exec_mdFinal_of_bound hf hc hx hb hp, hd]
  rfl

/-- Settles O38: the effect writes a zeroed context with the old BOUND and SEL. -/
theorem mdResetCompletes : Obligations.MdResetCompletes :=
  fun _ _ _ hf hc hx hb hp => ⟨_, exec_mdReset_of_bound hf hc hx hb hp, hb, rfl, rfl, rfl, rfl, rfl⟩

end Sys2Proof.Machine

/-! # Proofs of 60_exceptions.md: which fault is raised, what it changes, and what a faulted block discards

A command's rule is a list of checks by rising code. R201's table names the same conditions, so the first check that
fails is the lowest code whose condition holds. -/

namespace Sys2Proof.Machine

variable {s : State} {i : Instr} {checks : List Check}

/-! ## Discarding (R205) -/

theorem exec_faulted (hf : s.faulted = true) (hi : ¬ ∃ k, i = .csrRd k ∧ s.cmd.pay = []) : exec i s = .next s := by
  cases i with
  | csrRd k =>
    have hp : s.cmd.pay ≠ [] := fun hp => hi ⟨k, rfl, hp⟩
    exact (exec_csrRd_of_nonempty k hp).trans (perform_faulted hf)
  | _ => exact perform_faulted hf

/-- Settles O51: an illegal word is discarded by `illegalWordStep`, a command by `exec_faulted`. -/
theorem faultedBlockDiscards : Obligations.FaultedBlockDiscards := by
  intro s c rest ha hs hf hno
  cases hd : decode c.word with
  | illegal why => exact (illegalWordStep s c rest why ha hs hd).2 hf
  | command i =>
    rw [step_of_command ha hs hd]
    refine exec_faulted (s := takeCommand s c rest) hf ?_
    rintro ⟨k, rfl, hp⟩
    exact hno ⟨k, hd, hp⟩

/-! ## Precise faults (R203, R204) -/

/-- Settles O50: of what a command can do only its two faults set FAULTED, and both are `raiseFault`. -/
theorem faultsArePrecise : Obligations.FaultsArePrecise := by
  intro s t i hf h ht
  cases exec_did h with
  | faulted _ k => exact ⟨rfl, (causeCode_range k).1, (causeCode_range k).2, rfl, .inl rfl⟩
  | entropyFault rest _ _ _ he =>
    exact ⟨rfl, (causeCode_range .entropy).1, (causeCode_range .entropy).2, rfl, .inr ⟨rfl, rfl, he⟩⟩
  | _ => exact nomatch hf.symm.trans ht

/-! ## The order of the checks (R201, R207) -/

/-- The checks each command's rule makes before its effect. `exec_of_failure` ties them to `exec`, `causeHolds_iff` to
R201's table. -/
def checksOf (s : State) : Instr → List Check
  | .mtxGen => [checkMatrixEmpty s, checkPayload s 0]
  | .lutDerive => [checkMatrixReady s, checkPayload s 0]
  | .cmpRef => [checkMatrixReady s, checkPayload s s.cfg.inBytes]
  | .cmpLut => [checkLutReady s, checkPayload s s.cfg.inBytes]
  | .mdInitRef c => [checkCtxRange s c, checkMatrixReady s, checkPayload s 0]
  | .mdInitLut c => [checkCtxRange s c, checkLutReady s, checkPayload s 0]
  | .mdUpdate c n => [checkCtxRange s c, checkCtxBound s c, checkPayload s n]
  | .mdFinal c => [checkCtxRange s c, checkCtxBound s c, checkPayload s 0]
  | .mdReset c => [checkCtxRange s c, checkCtxBound s c, checkPayload s 0]
  | .csrRd _ => [checkPayload s 0]

theorem exec_of_failure {k : Cause} (hf : s.faulted = false) (hk : firstFailure (checksOf s i) = some k) :
    exec i s = .next (raiseFault s k) := by
  cases i with
  | csrRd n =>
    have hp : s.cmd.pay ≠ [] := fun hp => by simp [checksOf, firstFailure, checkPayload, hp] at hk
    exact (exec_csrRd_of_nonempty n hp).trans (perform_fails hf hk)
  | _ => exact perform_fails hf hk

/-- The checks stand in the order of their codes. -/
abbrev codesRise (checks : List Check) : Prop :=
  checks.Pairwise fun p q => (causeCode p.2).toNat < (causeCode q.2).toNat

theorem checksOf_codesRise (s : State) (i : Instr) : codesRise (checksOf s i) := by
  cases i <;>
    simp [checksOf, checkCtxRange, checkCtxBound, checkMatrixReady, checkLutReady, checkMatrixEmpty, checkPayload,
      causeCode]

/-- Of checks by rising code the failing one of the lowest code is the first that fails. -/
theorem firstFailure_of_lowest {p : Check} (hr : codesRise checks) (hp : p ∈ checks) (hbad : p.1 = true)
    (hlow : ∀ q ∈ checks, q.1 = true → ¬ (causeCode q.2).toNat < (causeCode p.2).toNat) :
    firstFailure checks = some p.2 := by
  induction checks with
  | nil => cases hp
  | cons q rest ih =>
    obtain ⟨hq, hrest⟩ := List.pairwise_cons.1 hr
    obtain rfl | hp := List.mem_cons.1 hp
    · exact if_pos hbad
    · have hpass : ¬ q.1 = true := fun hfail => hlow q List.mem_cons_self hfail (hq p hp)
      exact (if_neg hpass).trans (ih hrest hp fun q hq => hlow q (List.mem_cons_of_mem _ hq))

/-- A context that is absent reads as unbound. -/
theorem getCtx_bound_eq_false (s : State) (c : Nat) :
    (getCtx s c).bound = false ↔ ∀ x, s.ctxs[c]? = some x → x.bound = false := by
  cases h : s.ctxs[c]? with
  | none => simp [getCtx, List.getD, h, Ctx.unbound]
  | some x => simp [getCtx_of_some h]

/-- A condition of R201's table holds exactly when the command's check of that code fails. -/
theorem causeHolds_iff {k : Nat} :
    causeHolds s i k ↔ ∃ p ∈ checksOf s i, k = (causeCode p.2).toNat ∧ p.1 = true := by
  cases i <;>
    simp [causeHolds, checksOf, ctxNamed, needsBound, needsMatrix, needsLut, payloadLength, checkCtxRange, checkCtxBound,
      checkMatrixReady, checkLutReady, checkMatrixEmpty, checkPayload, causeCode, getCtx_bound_eq_false]

/-- Settles O49: the check of the lowest code that holds is the first that fails. -/
theorem lowestCauseIsRaised : Obligations.LowestCauseIsRaised := by
  intro s i k hf hk hlow
  obtain ⟨p, hp, rfl, hbad⟩ := causeHolds_iff.1 hk
  have hfirst : firstFailure (checksOf s i) = some p.2 := firstFailure_of_lowest (checksOf_codesRise s i) hp hbad
    fun q hq hfail hlt => hlow _ hlt (causeHolds_iff.2 ⟨q, hq, rfl, hfail⟩)
  rw [exec_of_failure hf hfirst, BitVec.ofNat_toNat, BitVec.setWidth_eq]
  rfl

end Sys2Proof.Machine

/-! # Proofs of 70_reset_and_hazards.md: hardware reset and the totality of the step

A step stops only at a configuration outside R8 and R9 or at MTX.GEN's entropy request. So an admitted configuration and
an entropy port that answers as R41 says leave it a next state in every case. -/

namespace Sys2Proof.Machine

/-! ## Hardware reset (R230) -/

/-- Settles O10: the step is `takeReset`, and the laws of `hardwareReset` give its fields. -/
theorem hardwareResetStep : Obligations.HardwareResetStep := by
  intro s rest ha hs
  refine ⟨takeReset s rest, step_of_rst ha hs, ?_⟩
  simp [takeReset, Ctx.unbound, Ctx.zeroed, faultO]

/-! ## Every command and every step answers (R15, R237) -/

section Answers

variable {s : State}

/-- Discarding and faulting answer, so only the effect can stop a command. -/
theorem perform_answers (checks : List Check) {effect : Result} (he : ∃ t, effect = .next t) :
    ∃ t, perform s checks effect = .next t := by
  obtain ⟨-, h⟩ | ⟨-, k, -, h⟩ | ⟨-, -, h⟩ := perform_cases s checks effect
  · exact ⟨_, h⟩
  · exact ⟨_, h⟩
  · exact h.symm ▸ he

/-- An entropy request answers when the pending answer is one R41 allows. -/
theorem entropyRead_answers {n : Nat} {goOn : List Byte → State → Result} (hne : s.entropy ≠ [])
    (hfit : ∀ a ∈ s.entropy, ∀ e, a = .ok e → e.length = n) (hgo : ∀ e t, ∃ u, goOn e t = .next u) :
    ∃ t, entropyRead s n goOn = .next t := by
  obtain ⟨he, -⟩ | ⟨rest, -, h⟩ | ⟨e, rest, -, -, h⟩ | ⟨e, rest, he, hl, -⟩ := entropyRead_cases s n goOn
  · exact absurd he hne
  · exact ⟨_, h⟩
  · exact h.symm ▸ hgo e _
  · exact absurd (hfit _ (he ▸ List.mem_cons_self) e rfl) hl

/-- MD.FINAL emits the digest or raises fault 9 (R152, R153). -/
theorem emitDigest_answers : ∀ d : Option (List Byte), ∃ t, emitDigest s d = .next t
  | some _ => ⟨_, rfl⟩
  | none => ⟨_, rfl⟩

theorem exec_answers (hne : s.entropy ≠ []) (hfit : entropyAnswersFit s) (i : Instr) : ∃ t, exec i s = .next t := by
  cases i with
  | mtxGen => exact perform_answers _ (entropyRead_answers hne hfit fun _ _ => ⟨_, rfl⟩)
  | mdFinal c => exact perform_answers _ (emitDigest_answers _)
  | csrRd k =>
    by_cases hp : s.cmd.pay = []
    · exact ⟨_, exec_csrRd_of_empty k hp⟩
    · exact exec_csrRd_of_nonempty k hp ▸ perform_answers _ ⟨_, rfl⟩
  | _ => exact perform_answers _ ⟨_, rfl⟩

end Answers

/-- Settles O60: idling, reset and an illegal word answer in every state, a command by `exec_answers`. -/
theorem stepAlwaysAnswers : Obligations.StepAlwaysAnswers := by
  intro s ha hne hfit
  match hs : s.stream with
  | [] => exact ⟨_, step_of_idle ha hs⟩
  | .rst :: rest => exact ⟨_, step_of_rst ha hs⟩
  | .command c :: rest =>
    cases hd : decode c.word with
    | command i => exact step_of_command ha hs hd ▸ exec_answers (s := takeCommand s c rest) hne hfit i
    | illegal why => exact step_of_illegal ha hs hd ▸ perform_answers _ ⟨_, rfl⟩

end Sys2Proof.Machine

/-! # Proofs of 20_memory.md: commands on different contexts

A command that names a context reads the matrix, the table and that context, writes at most that context, and appends to
the result port. So two commands on different contexts answer alike in either order (R76). -/

namespace Sys2Proof.Machine

section Contexts

variable {s t : State} {i : Instr} {c : Nat}

/-- A context that reads as bound stands in the array. -/
theorem getElem?_of_getCtx_bound (hb : (getCtx s c).bound = true) : s.ctxs[c]? = some (getCtx s c) := by
  cases hx : s.ctxs[c]? with
  | none => exact absurd hb (by simp [getCtx, List.getD, hx, Ctx.unbound])
  | some x => rw [getCtx_of_some hx]

theorem Did.faulted_of_faulted (hd : Did s i t) (hf : s.faulted = true) : t.faulted = true := by
  rw [hd.frame_of_faulted hf]
  exact hf

theorem Did.stream_eq (hd : Did s i t) : t.stream = s.stream := by
  cases hd <;> rfl

/-- The block with another pair on the command port, other contexts, other coming moves and other bytes emitted. -/
abbrev withCtxs (s : State) (cmd : Command) (ctxs : List Ctx) (moves : List HostMove) (bytes : List Byte) : State :=
  { s with cmd := cmd, ctxs := ctxs, stream := moves, result := bytes }

/-- On the pair `k` the command `i` writes `y` to context `c` and emits `bytes`, whatever the other contexts, the coming
moves and the bytes emitted before. -/
def Writes (s : State) (k : Command) (i : Instr) (c : Nat) (y : Ctx) (bytes : List Byte) : Prop :=
  ∀ (ctxs : List Ctx) (moves : List HostMove) (before : List Byte), ctxs[c]? = s.ctxs[c]? →
    exec i (withCtxs s k ctxs moves before) = .next (withCtxs s k (ctxs.set c y) moves (before ++ bytes))

theorem writes_of_setCtx {k : Command} {y : Ctx}
    (he : ∀ ctxs moves before, ctxs[c]? = s.ctxs[c]? →
      exec i (withCtxs s k ctxs moves before) = .next (setCtx (withCtxs s k ctxs moves before) c y)) :
    Writes s k i c y [] := by
  intro ctxs moves before hctx
  rw [he ctxs moves before hctx, List.append_nil]
  rfl

/-- A command that names a context and ends without a fault writes that context and emits, from it alone. -/
theorem Did.writes (hd : Did s i t) (hi : ctxNamed i = some c) (ht : t.faulted = false) :
    ∃ y bytes, Writes s s.cmd i c y bytes := by
  cases hd with
  | discarded _ hf => exact nomatch hf.symm.trans ht
  | faulted => exact nomatch ht
  | boundRef _ hf hc hm hp =>
    cases hi
    exact ⟨Ctx.zeroed s.cfg true .ref, [], writes_of_setCtx fun ctxs moves before _ =>
      exec_mdInitRef_of_ready (s := withCtxs s s.cmd ctxs moves before) hf hc hm hp⟩
  | boundLut _ hf hc hm hp =>
    cases hi
    exact ⟨Ctx.zeroed s.cfg true .lut, [], writes_of_setCtx fun ctxs moves before _ =>
      exec_mdInitLut_of_ready (s := withCtxs s s.cmd ctxs moves before) hf hc hm hp⟩
  | absorbed _ n hf hc hb hp =>
    cases hi
    have hx := getElem?_of_getCtx_bound hb
    refine ⟨absorb s.cfg.B (compressOf s (getCtx s c).sel) (getCtx s c) s.cmd.pay, [], ?_⟩
    exact writes_of_setCtx fun ctxs moves before hctx =>
      exec_mdUpdate_of_bound (s := withCtxs s s.cmd ctxs moves before) hf hc (hctx.trans hx) hb hp
  | cleared _ hf hc hb hp =>
    cases hi
    have hx := getElem?_of_getCtx_bound hb
    exact ⟨Ctx.zeroed s.cfg (getCtx s c).bound (getCtx s c).sel, [], writes_of_setCtx fun ctxs moves before hctx =>
      exec_mdReset_of_bound (s := withCtxs s s.cmd ctxs moves before) hf hc (hctx.trans hx) hb hp⟩
  | digested _ d hf hc hb hp hd =>
    cases hi
    refine ⟨getCtx s c, d, fun ctxs moves before hctx => ?_⟩
    have hx : ctxs[c]? = some (getCtx s c) := hctx.trans (getElem?_of_getCtx_bound hb)
    obtain ⟨hlt, hget⟩ := List.getElem?_eq_some_iff.1 hx
    have hsame : ctxs.set c (getCtx s c) = ctxs := by rw [← hget, List.set_getElem_self]
    rw [exec_mdFinal_of_bound (s := withCtxs s s.cmd ctxs moves before) hf hc hx hb hp, hsame]
    exact congrArg (emitDigest _) hd
  | _ => exact nomatch hi

theorem Writes.step {k : Command} {y : Ctx} {bytes : List Byte} (hw : Writes s k i c y bytes) (ha : s.cfg.Admitted)
    (hk : decode k.word = .command i) (cmd : Command) {ctxs : List Ctx} (moves : List HostMove) (before : List Byte)
    (hctx : ctxs[c]? = s.ctxs[c]?) :
    step (withCtxs s cmd ctxs (.command k :: moves) before) =
      .next (withCtxs s k (ctxs.set c y) moves (before ++ bytes)) :=
  (step_of_command (s := withCtxs s cmd ctxs (.command k :: moves) before) ha rfl hk).trans (hw ctxs moves before hctx)

end Contexts

/-- Settles O58: in either order each command writes its own context and emits its bytes, and writes at different places
commute. -/
theorem contextsCommute : Obligations.ContextsCommute := by
  intro s u t a b i j c d rest ha hb hi hj hne hu ht hnf
  obtain ⟨hadm, -⟩ := step_cases hu
  have hdid : Did (takeCommand s a (.command b :: rest)) i u :=
    exec_did ((step_of_command (s := { s with stream := _ }) hadm rfl ha).symm.trans hu)
  have hadmu : u.cfg.Admitted := step_cfg_eq hu ▸ hadm
  have hdid' : Did (takeCommand u b rest) j t :=
    exec_did ((step_of_command hadmu hdid.stream_eq hb).symm.trans ht)
  have hnfu : u.faulted = false := by
    by_contra hf
    exact absurd (hdid'.faulted_of_faulted (Bool.eq_true_of_not_eq_false hf)) (by simp [hnf])
  obtain ⟨y, da, hwa⟩ := hdid.writes hi hnfu
  obtain ⟨z, db, hwb⟩ := hdid'.writes hj hnf
  obtain rfl : _ = u := Host.Outcome.next.inj ((hwa.step hadm ha s.cmd _ s.result rfl).symm.trans hu)
  obtain rfl : _ = t := Host.Outcome.next.inj ((hwb.step hadm hb a rest (s.result ++ da) rfl).symm.trans ht)
  have hd : s.ctxs[d]? = (s.ctxs.set c y)[d]? := (List.getElem?_set_ne hne).symm
  have hc : (s.ctxs.set d z)[c]? = s.ctxs[c]? := List.getElem?_set_ne hne.symm
  refine ⟨_, _, da, db, hwb.step hadm hb s.cmd (.command a :: rest) s.result hd,
    hwa.step hadm ha b rest (s.result ++ db) hc, rfl, rfl, rfl, rfl, ?_⟩
  simp [takeCommand, List.set_comm _ _ hne]

end Sys2Proof.Machine

/-! # Proofs of 40_matrix.md and 41_compress.md: linearity over disjoint bytes

A table cell and a term of a compression are the same sum over the set bits of a byte. Of two bytes with no common bit
the union has the set bits of both, so the sum adds (R107, R124). -/

namespace Sys2Proof.Machine

/-! ## The set bits of a byte (R12) -/

section Bits

variable {u v : Byte}

theorem bit_or (u v : Byte) (p : Nat) : bit (u ||| v) p = (bit u p || bit v p) := BitVec.getLsbD_or

theorem bit_eq_false_of_disjoint {p : Nat} (h : u &&& v = 0) (hu : bit u p = true) : bit v p = false := by
  have hand : (bit u p && bit v p) = false := by
    rw [bit, bit, ← BitVec.getLsbD_and, h]
    exact BitVec.getLsbD_zero
  rwa [hu, Bool.true_and] at hand

theorem sumTo_bits_zero (f : Nat → Word) : sumTo 8 (fun p => if bit 0 p then f p else 0) = 0 := by
  rw [sumTo_eq_sum]
  exact Finset.sum_eq_zero fun p _ => if_neg (by simp [bit])

/-- Over disjoint bytes the sums at the set bits add. -/
theorem sumTo_bits_or (h : u &&& v = 0) (f : Nat → Word) :
    sumTo 8 (fun p => if bit (u ||| v) p then f p else 0) =
      sumTo 8 (fun p => if bit u p then f p else 0) + sumTo 8 (fun p => if bit v p then f p else 0) := by
  simp only [sumTo_eq_sum, ← Finset.sum_add_distrib]
  refine Finset.sum_congr rfl fun p _ => ?_
  rw [bit_or]
  cases hu : bit u p with
  | false => simp
  | true => simp [bit_eq_false_of_disjoint h hu]

end Bits

/-! ## The derived cells (R107) -/

section Cells

variable (a : Matrix) (i g : Nat)

theorem deriveCell_zero : deriveCell a i g 0x00 = 0 := sumTo_bits_zero _

theorem deriveCell_single {p : Nat} (hp : p < 8) : deriveCell a i g (0x80 >>> p) = cell a i (8 * g + p) := by
  have hbit : ∀ p < 8, ∀ q < 8, bit (BitVec.ofNat 8 (0x80 >>> p)) q = decide (q = p) := by decide
  calc deriveCell a i g (0x80 >>> p)
      = ∑ q ∈ Finset.range 8, if q = p then cell a i (8 * g + q) else 0 := by
        rw [deriveCell, sumTo_eq_sum]
        exact Finset.sum_congr rfl fun q hq => by simp [hbit p hp q (Finset.mem_range.1 hq)]
    _ = cell a i (8 * g + p) := Finset.sum_ite_eq_of_mem' _ _ _ (Finset.mem_range.2 hp)

theorem deriveCell_or {u v : Nat} (h : u &&& v = 0) :
    deriveCell a i g (u ||| v) = deriveCell a i g u + deriveCell a i g v := by
  have hdisj : BitVec.ofNat 8 u &&& BitVec.ofNat 8 v = 0 := by rw [← BitVec.ofNat_and, h]; rfl
  rw [deriveCell, BitVec.ofNat_or]
  exact sumTo_bits_or hdisj _

theorem deriveCell_ones : deriveCell a i g 0xFF = ∑ p ∈ Finset.range 8, cell a i (8 * g + p) := by
  have hbit : ∀ p < 8, bit (BitVec.ofNat 8 0xFF) p = true := by decide
  rw [deriveCell, sumTo_eq_sum]
  exact Finset.sum_congr rfl fun p hp => if_pos (hbit p (Finset.mem_range.1 hp))

end Cells

/-- Settles O23: each law is one of the sum over the set bits of the cell's byte value. -/
theorem tableLaws : Obligations.TableLaws := by
  intro g a i j hi hj
  refine ⟨?_, fun p hp => ?_, fun u v hu hv hdisj => ?_, ?_⟩
  · rw [entry_deriveTable hi hj (by decide), deriveCell_zero]
  · have hlt : 0x80 >>> p < 256 := Nat.lt_of_le_of_lt (Nat.shiftRight_le 0x80 p) (by decide)
    rw [entry_deriveTable hi hj hlt, deriveCell_single a i j hp]
  · have hor : u ||| v < 256 := Nat.or_lt_two_pow (n := 8) hu hv
    rw [entry_deriveTable hi hj hor, entry_deriveTable hi hj hu, entry_deriveTable hi hj hv, deriveCell_or a i j hdisj]
  · rw [entry_deriveTable hi hj (by decide), deriveCell_ones]

/-- Settles O26: a table cell adds what the reference compressor adds for its byte. -/
theorem compressorsEquivalent : Obligations.CompressorsEquivalent := compressLut_deriveTable

/-! ## The output words (R124) -/

section Linear

variable {g : Config} {m₁ m₂ : List Byte}

theorem getD_zipWith_or (h : m₁.length = m₂.length) (j : Nat) :
    (List.zipWith (· ||| ·) m₁ m₂).getD j 0 = m₁.getD j 0 ||| m₂.getD j 0 := by
  by_cases hj : j < m₁.length
  · simp [List.getD, hj, h ▸ hj]
  · simp [List.getD, hj, h ▸ hj]

theorem refWord_or (a : Matrix) (h : m₁.length = m₂.length) (hdisj : ∀ j, m₁.getD j 0 &&& m₂.getD j 0 = 0) (i : Nat) :
    refWord g a (List.zipWith (· ||| ·) m₁ m₂) i = refWord g a m₁ i + refWord g a m₂ i := by
  simp only [refWord, getD_zipWith_or h, sumTo_bits_or (hdisj _), sumTo_eq_sum g.inBytes, Finset.sum_add_distrib]

theorem compressRef_or (a : Matrix) (h : m₁.length = m₂.length) (hdisj : ∀ j, m₁.getD j 0 &&& m₂.getD j 0 = 0) :
    compressRef g a (List.zipWith (· ||| ·) m₁ m₂) =
      List.zipWith (· + ·) (compressRef g a m₁) (compressRef g a m₂) := by
  rw [compressRef, compressRef, compressRef, List.zipWith_map, List.zipWith_self]
  exact List.map_congr_left fun i _ => refWord_or a h hdisj i

theorem refWord_zeros (g : Config) (a : Matrix) (n i : Nat) : refWord g a (List.replicate n 0) i = 0 := by
  have hbyte : ∀ j, (List.replicate n (0 : Byte)).getD j 0 = 0 := List.getElem?_getD_replicate_default_eq 0 n
  simp only [refWord, hbyte, sumTo_bits_zero]
  rw [sumTo_eq_sum]
  exact Finset.sum_const_zero

theorem compressRef_zeros (g : Config) (a : Matrix) (n : Nat) :
    compressRef g a (List.replicate n 0) = List.replicate g.N 0 := by
  refine List.eq_replicate_iff.2 ⟨compressRef_length g a _, fun w hw => ?_⟩
  obtain ⟨i, -, rfl⟩ := List.mem_map.1 hw
  exact refWord_zeros g a n i

/-- Word `i` reads the cells of row `i` only. -/
theorem compressRef_getElem?_congr {a a' : Matrix} {i : Nat} (h : a[i]? = a'[i]?) (m : List Byte) :
    (compressRef g a m)[i]? = (compressRef g a' m)[i]? := by
  have hcell : cell a i = cell a' i := funext fun c => by simp only [cell, List.getD, h]
  have hword : refWord g a m i = refWord g a' m i := by simp only [refWord, hcell]
  by_cases hi : i < g.N
  · rw [compressRef_getElem? hi, compressRef_getElem? hi, hword]
  · simp [Nat.le_of_not_lt hi]

/-- Word `i` reads the groups of row `i` only. -/
theorem compressLut_getElem?_congr {t t' : Table} {i : Nat} (h : t[i]? = t'[i]?) (m : List Byte) :
    (compressLut g t m)[i]? = (compressLut g t' m)[i]? := by
  have hentry : entry t i = entry t' i := funext fun j => funext fun v => by simp only [entry, List.getD, h]
  have hword : lutWord g t m i = lutWord g t' m i := by simp only [lutWord, hentry]
  by_cases hi : i < g.N
  · rw [compressLut_getElem? hi, compressLut_getElem? hi, hword]
  · simp [Nat.le_of_not_lt hi]

end Linear

/-- Settles O27: over the derived table CompressLut is CompressRef, whose inner sum over set bits adds. -/
theorem compressionLinear : Obligations.CompressionLinear := by
  intro g a
  simp only [compressLut_deriveTable]
  refine ⟨fun m₁ m₂ h₁ h₂ hdisj => ?_, compressRef_zeros g a _, compressRef_zeros g a _,
    fun a' m i h => compressRef_getElem?_congr h m, fun t t' m i h => compressLut_getElem?_congr h m⟩
  have hadd := compressRef_or (g := g) a (h₁.trans h₂.symm) hdisj
  exact ⟨hadd, hadd⟩

end Sys2Proof.Machine

/-! # Proofs of 42_digest.md: pieces, blocks, chain and both compressors

What Finalize answers depends on a context only through the stream it carries and its LEN. Pieces and one message leave
the same stream (R148), the two compressors leave streams of the same chain (R158), and the padded stream is one block
or two (R154). -/

namespace Sys2Proof.Machine

section Carried

variable {B : Nat} {f : List Byte → List Word} {h : List Word} {m : List Byte} {x y : Ctx}

/-- A context carries its own bytes, which are less than a block. -/
theorem carries_self (hnx : x.nx < B) (hbuf : x.buf.length = B) : Carries B f x.cv (x.buf.take x.nx) x := by
  have hlen : (x.buf.take x.nx).length = x.nx := List.length_take_of_le (hbuf ▸ hnx.le)
  have hdiv : x.nx / B = 0 := Nat.div_eq_of_lt hnx
  exact ⟨by rw [hlen, hdiv, chain], by rw [hlen, Nat.mod_eq_of_lt hnx],
    by rw [hlen, hdiv, Nat.zero_mul, List.drop_zero], hbuf⟩

theorem Carries.nx_lt (hB : 0 < B) (hx : Carries B f h m x) : x.nx < B := hx.nx ▸ Nat.mod_lt _ hB

/-- Contexts that carry one stream differ at most in BOUND, SEL, LEN and `BUF[NX..B)`. -/
theorem Carries.sameCarried (hx : Carries B f h m x) (hy : Carries B f h m y) (hbound : x.bound = y.bound)
    (hsel : x.sel = y.sel) (hlen : x.len = y.len) : sameCarried x y :=
  ⟨hbound, hsel, hx.cv.trans hy.cv.symm, hx.nx.trans hy.nx.symm, hlen, hx.carried.trans hy.carried.symm,
    hx.bufLen.trans hy.bufLen.symm⟩

theorem Carries.padded (hB : 0 < B) (hx : Carries B f h m x) :
    Carries B f h (m ++ (padBytes B x.len ++ lengthField x.len)) (padded B f x) := by
  rw [← List.append_assoc]
  exact (hx.absorb hB _).absorb hB _

/-- Finalize reads a context through the stream it carries and its LEN. -/
theorem finalize_eq_of_carries (hB : 0 < B) (hx : Carries B f h m x) (hy : Carries B f h m y) (hlen : x.len = y.len) :
    finalize B f x = finalize B f y := by
  have hpx := hx.padded hB
  have hpy := hy.padded hB
  rw [← hlen] at hpy
  rw [finalize, finalize, hpx.nx, hpy.nx, hpx.cv, hpy.cv]

/-! ## Pieces (R148) -/

/-- Absorbing pieces in order goes on with the carried stream; BOUND and SEL stay and LEN counts every piece. -/
theorem Carries.foldl_absorb (hB : 0 < B) (pieces : List (List Byte)) : ∀ {m : List Byte} {x : Ctx},
    Carries B f h m x → Carries B f h (m ++ pieces.flatten) (pieces.foldl (Machine.absorb B f) x) ∧
      (pieces.foldl (Machine.absorb B f) x).bound = x.bound ∧ (pieces.foldl (Machine.absorb B f) x).sel = x.sel ∧
      (pieces.foldl (Machine.absorb B f) x).len = x.len + BitVec.ofNat 64 pieces.flatten.length := by
  induction pieces with
  | nil => exact fun hx => ⟨by simpa using hx, rfl, rfl, by simp⟩
  | cons p pieces ih =>
    intro m x hx
    obtain ⟨-, hbound, hsel, hlen⟩ := absorb_spec (f := f) hB (hx.nx_lt hB) hx.bufLen p
    obtain ⟨hcs, hbounds, hsels, hlens⟩ := ih (hx.absorb hB p)
    refine ⟨?_, hbounds.trans hbound, hsels.trans hsel, ?_⟩
    · rwa [List.append_assoc] at hcs
    · rw [List.foldl_cons, hlens, hlen, List.flatten_cons, List.length_append, BitVec.ofNat_add, BitVec.add_assoc]

end Carried

/-- Settles O33: the pieces and their concatenation leave one carried stream and one LEN. -/
theorem incrementality : Obligations.Incrementality := by
  intro B f x pieces hB hnx hbuf
  obtain ⟨hps, hpb, hpsel, hpl⟩ := (carries_self (f := f) hnx hbuf).foldl_absorb hB pieces
  obtain ⟨hone, hb, hsel, hl⟩ := absorb_spec (f := f) hB hnx hbuf pieces.flatten
  have hlen := hpl.trans hl.symm
  exact ⟨hps.sameCarried hone (hpb.trans hb.symm) (hpsel.trans hsel.symm) hlen, finalize_eq_of_carries hB hps hone hlen⟩

/-! ## The blocks of the padding (R154) -/

section Blocks

variable {B : Nat} {f : List Byte → List Word} {h : List Word} {x : Ctx}

theorem chain_one_block {s : List Byte} (hs : s.length = B) : chain B f h s 1 = f (ser h ++ s) := by
  rw [chain, chain, slice, Nat.zero_mul, List.drop_zero, List.take_of_length_le hs.le]

theorem chain_two_blocks {p q : List Byte} (hp : p.length = B) (hq : q.length = B) :
    chain B f h (p ++ q) 2 = f (ser (f (ser h ++ p)) ++ q) := by
  rw [chain_succ_front, List.take_left' hp, List.drop_left' hp, chain_one_block hq]

theorem padBytes_of_lt {len : Word} (h : len.toNat % B < B - 8) :
    padBytes B len = [0x80#8] ++ List.replicate (B - 9 - len.toNat % B) 0#8 := by
  rw [padBytes, padLen_of_lt h, show B - 8 - len.toNat % B - 1 = B - 9 - len.toNat % B by omega, List.singleton_append]

/-- Padding that reaches into a second block: zeros to the end of the first, then to its length field. -/
theorem padBytes_of_le {len : Word} (hlt : len.toNat % B < B) (h : B - 8 ≤ len.toNat % B) (hB : 8 ≤ B) :
    padBytes B len = [0x80#8] ++ List.replicate (B - len.toNat % B - 1) 0#8 ++ List.replicate (B - 8) 0#8 := by
  rw [padBytes, padLen_of_le h, show 2 * B - 8 - len.toNat % B - 1 = (B - len.toNat % B - 1) + (B - 8) by omega,
    ← List.replicate_append_replicate, List.append_assoc, List.singleton_append]

/-- Finalize of a context that carries `LEN mod B` bytes: the chain over the `k` blocks of these bytes and their
padding. -/
theorem finalize_of_residue (hB : 16 ≤ B) (hbuf : x.buf.length = B) (hres : x.nx = x.len.toNat % B) {s : List Byte}
    (hs : x.buf.take x.nx ++ (padBytes B x.len ++ lengthField x.len) = s) {k : Nat} (hk : s.length = k * B) :
    finalize B f x = some (ser (chain B f x.cv s k)) := by
  have hB0 : 0 < B := by omega
  have hnx : x.nx < B := hres ▸ Nat.mod_lt _ hB0
  have hpad := (carries_self (f := f) hnx hbuf).padded hB0
  rw [hs] at hpad
  rw [finalize, if_pos ((padded_nx_eq_zero_iff hnx hbuf hB).2 hres), hpad.cv, hk, Nat.mul_div_cancel _ hB0]

end Blocks

/-- Settles O35: the padded stream of a context is one block when the padding fits into it; else it is two, and the
padding's zeros cross from the first into the second. -/
theorem finalizeBlocks : Obligations.FinalizeBlocks := by
  intro B f x hB hbuf hres
  have hnx : x.nx < B := hres ▸ Nat.mod_lt _ (by omega)
  have htake : (x.buf.take x.nx).length = x.nx := List.length_take_of_le (hbuf ▸ hnx.le)
  refine ⟨fun hlt => ?_, fun hle => ?_⟩
  · have hpad := padBytes_of_lt (len := x.len) (hres ▸ hlt)
    rw [← hres] at hpad
    have hlen : (x.buf.take x.nx ++ [0x80#8] ++ List.replicate (B - 9 - x.nx) 0#8 ++ le64 (x.len * 8)).length = B := by
      simp [htake]; omega
    rw [finalize_of_residue hB hbuf hres (by simp [hpad, lengthField]) (hlen.trans (Nat.one_mul B).symm),
      chain_one_block hlen]
  · have hpad := padBytes_of_le (len := x.len) (hres ▸ hnx) (hres ▸ hle) (by omega)
    rw [← hres] at hpad
    have hfirst : (x.buf.take x.nx ++ [0x80#8] ++ List.replicate (B - x.nx - 1) 0#8).length = B := by
      simp [htake]; omega
    have hsecond : (List.replicate (B - 8) 0#8 ++ le64 (x.len * 8)).length = B := by simp; omega
    have hstream : x.buf.take x.nx ++ (padBytes B x.len ++ lengthField x.len) =
        (x.buf.take x.nx ++ [0x80#8] ++ List.replicate (B - x.nx - 1) 0#8) ++
          (List.replicate (B - 8) 0#8 ++ le64 (x.len * 8)) := by
      simp only [hpad, lengthField, List.append_assoc]
    rw [finalize_of_residue hB hbuf hres hstream (k := 2) (by rw [List.length_append, hfirst, hsecond, Nat.two_mul]),
      chain_two_blocks hfirst hsecond]

/-! ## The digest of a message (R158, R161) -/

theorem absorbed_message {g : Config} (hB : 0 < g.B) (f : List Byte → List Word) (sel : Compressor) (m : List Byte) :
    Absorbed g f sel m (absorb g.B f (Ctx.zeroed g true sel) m) :=
  (absorbed_zeroed g f sel).absorb hB m

/-- Settles O40: a fresh context that absorbs the message carries it, and the padding completes its blocks. -/
theorem digestIsChain : Obligations.DigestIsChain :=
  fun _ f sel m hg hm =>
    (absorbed_message (B_pos_of_admitted hg) f sel m).finalize_eq (sixteen_le_B_of_admitted hg) hm

/-- Settles O41: both compressors are one function (R123), and Finalize does not read SEL. -/
theorem digestsAgree : Obligations.DigestsAgree := by
  intro g a m hg
  have hB := B_pos_of_admitted hg
  have hf : compressLut g (deriveTable g a) = compressRef g a := funext fun m => compressLut_deriveTable g a m
  have hlut := absorbed_message hB (compressRef g a) .lut m
  have href := absorbed_message hB (compressRef g a) .ref m
  rw [hf]
  exact finalize_eq_of_carries hB hlut.carries href.carries (hlut.len.trans href.len.symm)

/-! ## Constructing again (R157) -/

/-- Settles O39: a bound context's compressor is ready (R141), so both commands write the same zeroed context. -/
theorem resetEquivalence : Obligations.ResetEquivalence := by
  intro s c x hinv hf hx hb hp
  have hc : c < s.cfg.NUM_CTX := hinv.ctxCount ▸ (List.getElem?_eq_some_iff.1 hx).1
  have hreset := exec_mdReset_of_bound hf hc hx hb hp
  obtain ⟨href, hlut⟩ := hinv.ctxReady x (List.mem_of_getElem? hx) hb
  refine ⟨⟨_, hreset⟩, fun hsel => ?_, fun hsel => ?_⟩
  · rw [hreset, exec_mdInitRef_of_ready hf hc (href hsel) hp, hb, hsel]
  · rw [hreset, exec_mdInitLut_of_ready hf hc (hlut hsel) hp, hb, hsel]

end Sys2Proof.Machine

/-! # Proofs of 95_test_vectors.md's decoding table and of 60_exceptions.md's and 70_reset_and_hazards.md's waits

The words of the table are fixed. The block waits with no move of the host pending (R217), and it is stuck when its
entropy request has no answer (R237). -/

namespace Sys2Proof.Machine

/-- Settles O1: each word of table D1 is fixed, so the decoder is evaluated on it. -/
theorem specWordsDecode : Obligations.SpecWordsDecode := by
  refine ⟨rfl, rfl, rfl, rfl, rfl, rfl, rfl, rfl, rfl, rfl, ?_⟩
  simp only [List.forall_mem_cons]
  exact ⟨rfl, rfl, rfl, rfl, rfl, nofun⟩

/-- Settles O9: an empty stream is the step's idle branch. -/
theorem idleStep : Obligations.IdleStep := fun _ => step_of_idle

theorem entropyRead_of_unanswered {s : State} (he : s.entropy = []) (n : Nat) (goOn : List Byte → State → Result) :
    entropyRead s n goOn = .fault .entropyUnanswered := by
  simp [entropyRead, he]

/-- Settles O19: both checks pass, and the request finds no answer. -/
theorem mtxGenUnansweredIsStuck : Obligations.MtxGenUnansweredIsStuck :=
  fun _ hf hm hp he => (exec_mtxGen_of_empty hf hp hm).trans (entropyRead_of_unanswered he _ _)

end Sys2Proof.Machine
